-- ==== Sys2Proof/Word.lean ====
section
/-! DEFINITION. The machine's words: the 32-bit register and bus word, the 8-bit byte of memory, and the
four bytes of one pixel in address order (00_scope.md R5, R6; 10_state.md R45). -/

namespace Sys2Proof

/-- A register of the register file, a command word, a bus data word or a memory address: 32 bits
(00_scope.md R5, `DATA_BITS` and `ADDR_BITS`). -/
abbrev Word := BitVec 32

/-- One byte of memory, and one channel of a pixel: 8 bits (20_memory.md R61, 00_scope.md R8). -/
abbrev Byte := BitVec 8

/-- The four bytes of one pixel, `b0` at the pixel's address and `b3` three bytes above it
(10_state.md R45, 20_memory.md R68). -/
structure Quad where
  b0 : Byte
  b1 : Byte
  b2 : Byte
  b3 : Byte
  deriving DecidableEq, Repr

end Sys2Proof
end

