-- ==== Sys2Proof/Syntax.lean ====
section
/-! DEFINITION. The instructions of spec/opcode_table.json, one constructor each, and the two kinds of
encoded input they come from (30_encoding.md R90). -/

namespace Sys2Proof

/-- The register that `PADDR[5:2]` selects (30_encoding.md R95, 10_state.md R20). -/
inductive Reg where
  | cmd
  | status
  | ctrl
  | srcBase
  | srcStride
  | srcSize
  | dstBase
  | dstSize
  | format
  | progress
  | id
  /-- A reserved offset, by its `PADDR[5:2]`: 11 to 15 (10_state.md R35). -/
  | reserved (index : BitVec 4)
  deriving DecidableEq, Repr

/-- The instructions: two register-port transactions and three command words. -/
inductive Instr where
  /-- `MMIO_RD`: read a register (40_host_access.md R120). -/
  | mmioRd (reg : Reg)
  /-- `MMIO_WR`: write a register; a write to `CMD` submits a command word (40_host_access.md R121). -/
  | mmioWr (reg : Reg) (pwdata : Word)
  /-- `NOP`: command word 0 (41_commands.md R142). -/
  | nop
  /-- `RESIZE`: command word 1 (41_commands.md R143). -/
  | resize
  /-- `CLEAR`: command word 2 (41_commands.md R145). -/
  | clear
  deriving DecidableEq, Repr

/-- What the block decodes (30_encoding.md R90): a transaction's 9-bit header
`{PWRITE, PSIZE[1:0], PADDR[5:0]}` with its `PWDATA`, or a command word. -/
inductive Encoded where
  | transaction (header : BitVec 9) (pwdata : Word)
  | command (word : Word)
  deriving DecidableEq, Repr

end Sys2Proof
end

