-- ==== Sys2Proof/WellFormed.lean ====
section
/-! DEFINITION. Which instructions the encodings can express: a reserved register index is one of 11 to 15
(30_encoding.md R95). -/

namespace Sys2Proof

/-- A reserved register is named by an index that no other register has (30_encoding.md R95). -/
def Reg.wf : Reg → Bool
  | .reserved index => decide (11#4 ≤ index)
  | .cmd => true
  | .status => true
  | .ctrl => true
  | .srcBase => true
  | .srcStride => true
  | .srcSize => true
  | .dstBase => true
  | .dstSize => true
  | .format => true
  | .progress => true
  | .id => true

/-- An instruction is well formed when its register is. -/
def Instr.wf : Instr → Bool
  | .mmioRd reg => reg.wf
  | .mmioWr reg _ => reg.wf
  | .nop => true
  | .resize => true
  | .clear => true

end Sys2Proof
end

