-- ==== Sys2Proof/Decode.lean ====
section
/-! DEFINITION. The decoder of both kinds of encoded input, total on any bits and rejecting by name, the
encoder written from the same tables, and the opcode table's own layout of an instruction's bits
(30_encoding.md R90 to R98). -/

namespace Sys2Proof

/-! ## Transaction headers (30_encoding.md R93 to R95) -/

/-- `PWRITE`, header bit 8: 1 is a write (30_encoding.md R93). -/
def headerWrite (header : BitVec 9) : Bool := header.getLsbD 8

/-- `PSIZE`, header bits 7..6 (30_encoding.md R93). -/
def headerSize (header : BitVec 9) : BitVec 2 := header.extractLsb' 6 2

/-- `PADDR`, header bits 5..0: the byte offset in the register window (30_encoding.md R93). -/
def headerAddr (header : BitVec 9) : BitVec 6 := header.extractLsb' 0 6

/-- A transaction is valid when it is 32 bits wide at a word-aligned offset (30_encoding.md R94). -/
def headerValid (header : BitVec 9) : Bool :=
  headerSize header == 2#2 && (headerAddr header).extractLsb' 0 2 == 0#2

/-- Register select: the register of `PADDR[5:2]` (30_encoding.md R95). -/
def Reg.ofIndex (index : BitVec 4) : Reg :=
  match index with
  | 0#4 => .cmd
  | 1#4 => .status
  | 2#4 => .ctrl
  | 3#4 => .srcBase
  | 4#4 => .srcStride
  | 5#4 => .srcSize
  | 6#4 => .dstBase
  | 7#4 => .dstSize
  | 8#4 => .format
  | 9#4 => .progress
  | 10#4 => .id
  | k => .reserved k

/-- The `PADDR[5:2]` that selects a register (30_encoding.md R95). -/
def Reg.index : Reg → BitVec 4
  | .cmd => 0
  | .status => 1
  | .ctrl => 2
  | .srcBase => 3
  | .srcStride => 4
  | .srcSize => 5
  | .dstBase => 6
  | .dstSize => 7
  | .format => 8
  | .progress => 9
  | .id => 10
  | .reserved index => index

/-- A register's byte offset in the window (10_state.md R20). -/
def Reg.offset (reg : Reg) : BitVec 6 := reg.index ++ 0#2

/-! ## Command words (30_encoding.md R91, R92) -/

/-- The command word `NOP`, 0x00000000. -/
def nopWord : Word := 0x00000000

/-- The command word `RESIZE`, 0x00000001. -/
def resizeWord : Word := 0x00000001

/-- The command word `CLEAR`, 0x00000002. -/
def clearWord : Word := 0x00000002

/-- Why an encoded input is no instruction. Neither stops the machine: each has the effect its rule
gives. -/
inductive DecodeError where
  /-- `PSIZE ≠ 2` or `PADDR[1:0] ≠ 0` (40_host_access.md R122), with its `PWRITE`. -/
  | invalidTransaction (write : Bool)
  /-- A word that 30_encoding.md R92 does not list (41_commands.md R141, R146). -/
  | illegalCommand (word : Word)
  deriving DecidableEq, Repr

/-- Transaction decode (30_encoding.md R94). -/
def decodeTransaction (header : BitVec 9) (pwdata : Word) : Except DecodeError Instr :=
  let reg := Reg.ofIndex ((headerAddr header).extractLsb' 2 4)
  if headerValid header then
    if headerWrite header then .ok (.mmioWr reg pwdata) else .ok (.mmioRd reg)
  else .error (.invalidTransaction (headerWrite header))

/-- Command decode, by exact match on all 32 bits (30_encoding.md R92). -/
def decodeCommand (word : Word) : Except DecodeError Instr :=
  if word = nopWord then .ok .nop
  else if word = resizeWord then .ok .resize
  else if word = clearWord then .ok .clear
  else .error (.illegalCommand word)

/-- Decode either kind of encoded input (30_encoding.md R90). -/
def decode : Encoded → Except DecodeError Instr
  | .transaction header pwdata => decodeTransaction header pwdata
  | .command word => decodeCommand word

/-! ## The encoder (30_encoding.md R92, R93) -/

/-- The header `{PWRITE, PSIZE = 2, PADDR}` of a register's transaction (30_encoding.md R93). -/
def encodeHeader (write : Bool) (reg : Reg) : BitVec 9 := BitVec.ofBool write ++ 2#2 ++ reg.offset

/-- The encoded input of an instruction. A read carries no write data: its `PWDATA` is 0. -/
def encode : Instr → Encoded
  | .mmioRd reg => .transaction (encodeHeader false reg) 0
  | .mmioWr reg pwdata => .transaction (encodeHeader true reg) pwdata
  | .nop => .command nopWord
  | .resize => .command resizeWord
  | .clear => .command clearWord

/-! ## The opcode table's layout -/

/-- The encoded input whose bits are `w`, numbered as the opcode table numbers them. Up to 16 bits hold a
transaction's header alone (bits 8..0; the pins have no more), its `PWDATA` being 0. 17 to 32 bits hold a
command word. More hold a header in the first 16 bits and its `PWDATA` in bits 47..16. Bits beyond those
name no input (log entry 4). -/
def tableEncoded (nbits w : Nat) : Option Encoded :=
  if nbits ≤ 16 then
    if w < 2 ^ 9 then some (.transaction (BitVec.ofNat 9 w) 0) else none
  else if nbits ≤ 32 then
    if w < 2 ^ 32 then some (.command (BitVec.ofNat 32 w)) else none
  else
    if w % 2 ^ 16 < 2 ^ 9 ∧ w < 2 ^ 48 then
      some (.transaction (BitVec.ofNat 9 (w % 2 ^ 16)) (BitVec.ofNat 32 (w / 2 ^ 16)))
    else none

/-- The instruction an `Except` holds, if any. -/
def decoded? : Except DecodeError Instr → Option Instr
  | .ok i => some i
  | .error _ => none

/-- The instruction the decoder reads from an instruction whose bits are `w`, numbered as the opcode table
numbers them. -/
def decodeTableWord (nbits w : Nat) : Option Instr :=
  (tableEncoded nbits w).bind fun e => decoded? (decode e)

end Sys2Proof
end

