-- ==== Sys2Proof/Config.lean ====
section
/-! DEFINITION. What the spec leaves to the platform (00_scope.md R5, "OPEN") and the values it leaves
free (93_implementation_defined.md, "any value"). A constant declared `opaque` has no body: nothing can be
proved of its value. -/

namespace Sys2Proof

/-- The byte addresses `lo ≤ a < hi`. -/
structure AddrRange where
  lo : Nat
  hi : Nat
  deriving DecidableEq, Repr

/-- The platform's two predicates on byte addresses (00_scope.md R5), each as the ranges where it is
false. Every predicate on the 2^32 byte addresses has this form. A machine's platform never changes. -/
structure Platform where
  /-- The addresses that answer with a bus error: `Backed(a)` is false there. -/
  unbacked : List AddrRange
  /-- The addresses whose accesses have side effects: `Ordinary(a)` is false there. -/
  unordinary : List AddrRange
  deriving DecidableEq, Repr

/-- The platform with every byte backed and ordinary (95_test_vectors.md section L2, "Default set-up").
DESIGN CHOICE for `State.reset` (log entry 6): unsafe for a claim that leans on it. -/
def Platform.allOrdinary : Platform := { unbacked := [], unordinary := [] }

/-- The host address of register offset 0x00 (00_scope.md R5, `ENGINE_BASE`, OPEN). Its width is a DESIGN
CHOICE: the spec gives the host's own map none (92_eei_decisions.md D36), and `ADDR_BITS` is for memory
addresses (log entry 19). -/
opaque Config.engineBase : Word

/-- The byte drawn `n`-th among the free values (93_implementation_defined.md S1, S2, S3). DESIGN CHOICE
of form, safe: no proof can see its value (log entry 8). -/
opaque Config.freeByte : Nat → Byte

/-- The 32-bit word drawn `n`-th among the free values (93_implementation_defined.md S5). -/
opaque Config.freeWord : Nat → Word

/-- The choice drawn `n`-th among several allowed outcomes (93_implementation_defined.md S4). -/
opaque Config.freeChoice : Nat → Nat

end Sys2Proof
end

