-- ==== Sys2Proof/Machine/State.lean ====
section
/-! DEFINITION. The machine's whole state as plain data, the reasons a step can stop, and the state right
after reset (10_state.md; 40_host_access.md R123 to R125; 70_reset_and_hazards.md R235 to R238). -/

namespace Sys2Proof.Machine

/-- The error codes of `STATUS.ERR` (60_exceptions.md R201). Codes 9 to 15 are never produced, so they
have no constructor (93_implementation_defined.md S11). -/
inductive ErrCode where
  | none
  | format
  | emptySrc
  | stride
  | align
  | range
  | overlap
  | bus
  | illegalCmd
  deriving DecidableEq, Repr

/-- The registers of the register file that have storage (10_state.md R20). -/
structure Regs where
  /-- `STATUS.BUSY` (10_state.md R29). -/
  busy : Bool
  /-- `STATUS.DONE` (10_state.md R30). -/
  done : Bool
  /-- `STATUS.IGN` (10_state.md R31). -/
  ign : Bool
  /-- `STATUS.ERR` (10_state.md R32). -/
  err : ErrCode
  /-- `CTRL.IRQ_EN` (10_state.md R28). -/
  irqEn : Bool
  /-- `SRC_BASE` (10_state.md R22). -/
  srcBase : Word
  /-- `SRC_STRIDE` (10_state.md R23). -/
  srcStride : Word
  /-- `SRC_SIZE`, `SRC_H` above `SRC_W` (10_state.md R24). -/
  srcSize : Word
  /-- `DST_BASE` (10_state.md R25). -/
  dstBase : Word
  /-- `DST_SIZE`, `DST_H` above `DST_W` (10_state.md R26). -/
  dstSize : Word
  /-- `FORMAT.FMT` (10_state.md R27). -/
  fmt : BitVec 2
  /-- `PROGRESS`, the destination pixels written, which is also the scan position (10_state.md R34, R37). -/
  progress : Word
  deriving DecidableEq, Repr

/-- The reset value of every register (10_state.md R20, 70_reset_and_hazards.md R235). -/
def Regs.reset : Regs where
  busy := false
  done := false
  ign := false
  err := .none
  irqEn := false
  srcBase := 0
  srcStride := 0
  srcSize := 0
  dstBase := 0
  dstSize := 0
  fmt := 0
  progress := 0

/-- The operation snapshot (10_state.md R36). -/
structure Snapshot where
  srcBase : Word
  srcStride : Word
  srcW : BitVec 16
  srcH : BitVec 16
  dstBase : Word
  dstW : BitVec 16
  dstH : BitVec 16
  fmt : BitVec 2
  deriving DecidableEq, Repr

/-- The snapshot of `State.reset`. The spec leaves it unspecified and no rule reads it before the next
taken `RESIZE` writes it (10_state.md R36). DESIGN CHOICE 0, unsafe for a claim that leans on the value
(log entry 5). -/
def Snapshot.reset : Snapshot where
  srcBase := 0
  srcStride := 0
  srcW := 0
  srcH := 0
  dstBase := 0
  dstW := 0
  dstH := 0
  fmt := 0

/-- The memory space: its cells by rising address, a byte of value 0 unlisted (20_memory.md R61). What an
unlisted byte reads as is a DESIGN CHOICE, unsafe for a claim about memory nothing has written (log
entry 7). -/
abbrev Memory := List Host.Cell

/-- A pixel's four bytes before an engine write that a host read need not see yet (20_memory.md R71, R75;
70_reset_and_hazards.md R243). -/
structure StalePixel where
  addr : Nat
  old : Quad
  deriving DecidableEq, Repr

/-- The register port's answer to a transaction (40_host_access.md R120 to R122). Only a read carries
`PRDATA`. -/
inductive Response where
  /-- No transaction has been answered since reset. -/
  | idle
  /-- `OKAY`. -/
  | okay (prdata : Option Word)
  /-- `SLVERR` (40_host_access.md R122). -/
  | slverr (prdata : Option Word)
  deriving DecidableEq, Repr

/-- Who writes memory beside the engine (20_memory.md R75 items 1, 5 and 6). -/
inductive BusAgent where
  /-- The host: its accesses are host steps (00_scope.md R9). -/
  | host
  /-- Any other bus agent, ordered by the platform alone (20_memory.md R75 item 6). -/
  | other
  deriving DecidableEq, Repr

/-- What the outside world does next: the host's steps, the engine's turns, other agents' memory writes
and reset (00_scope.md R9; 40_host_access.md R123 to R126). -/
inductive Input where
  /-- The host puts an encoded input on the register port (30_encoding.md R90). -/
  | port (encoded : Encoded)
  /-- The engine takes its turn: one `PIXEL_STEP` if it is busy (42_resize_datapath.md R170). -/
  | engineTurn
  /-- The host or another agent writes memory in one aligned access of the four bytes at `4 * index`: those
  bytes `k` of them with bit `k` of `lanes` set, one alone or up to all four, in one step (20_memory.md R71,
  70_reset_and_hazards.md R246; log entry 23). -/
  | memWrite (agent : BusAgent) (index : BitVec 30) (lanes : BitVec 4) (bytes : Quad)
  /-- The host reads the aligned four bytes at `4 * index` (20_memory.md R71, R75). -/
  | memRead (index : BitVec 30)
  /-- The host takes the interrupt, if `IRQ` is high (20_memory.md R75 item 4). -/
  | irqTaken
  /-- `RST_N` goes low (70_reset_and_hazards.md R235, R237). -/
  | resetAssert
  /-- `RST_N` goes high (70_reset_and_hazards.md R238). -/
  | resetRelease
  deriving DecidableEq, Repr

/-- The whole machine. -/
structure State where
  /-- Which addresses are backed and ordinary; fixed for a machine (00_scope.md R5, log entry 6). -/
  platform : Platform
  /-- The register file (10_state.md R20). -/
  regs : Regs
  /-- The operation snapshot (10_state.md R36). -/
  snap : Snapshot
  /-- An extent of the running operation has been written by another agent (70_reset_and_hazards.md R246). -/
  conflict : Bool
  /-- The memory space (20_memory.md R61). -/
  mem : Memory
  /-- Pixel writes that a host read need not see yet (20_memory.md R75). -/
  stale : List StalePixel
  /-- The register port's last answer (40_host_access.md R120 to R122). -/
  response : Response
  /-- The bytes of the host's last memory read, if it answered (20_memory.md R75). -/
  hostData : Option Quad
  /-- `RST_N` is held low (70_reset_and_hazards.md R235). -/
  inReset : Bool
  /-- What the outside world does from here on, first things first (log entries 1 and 2). -/
  inputs : List Input
  /-- How many free values have been drawn: the model's own field (log entry 8). -/
  freeCount : Nat
  deriving DecidableEq, Repr

/-- Why the machine stops. -/
inductive Fault where
  /-- A register-port transaction while `RST_N = 0` gets no response, and the machine has no host step
  then (70_reset_and_hazards.md R235, 93_implementation_defined.md S17 "stuck"). Raised by a port input
  while reset is held. Safe. -/
  | transactionDuringReset
  /-- A step of the host elsewhere than on the register port while `RST_N = 0`: "The model has no host step
  while reset is held" (70_reset_and_hazards.md R235). Raised by a memory write or read of the host and by its
  taking the interrupt. Safe (log entry 14). -/
  | hostStepDuringReset
  /-- `BUSY = 1` with a snapshot that `RESIZE` would not accept, or with no pixel left. Raised by the
  engine's step. No run from reset reaches it, since only an accepted `RESIZE` sets `BUSY` (10_state.md
  R29). Safe (log entry 16). -/
  | noValidOperation
  deriving DecidableEq, Repr

/-- Why the model gives a step no meaning. -/
inductive Refusal where
  /-- An instruction whose meaning is not written yet. Raised by no arm. Safe. -/
  | notModelled (mnemonic : String)
  /-- A `PIXEL_STEP` of an operation whose extents hold memory that is not ordinary: "A model refuses such
  an operation" (70_reset_and_hazards.md R245). Raised by the engine's step. Safe (log entry 15). -/
  | nonOrdinaryMemory
  deriving DecidableEq, Repr

/-- The machine right after reset (70_reset_and_hazards.md R235, R236, R238): every register at its reset
value, the engine idle, `RST_N` released. The platform, the snapshot and the unlisted memory are the
model's choices (log entries 5, 6 and 7). -/
def State.reset : State where
  platform := .allOrdinary
  regs := .reset
  snap := .reset
  conflict := false
  mem := []
  stale := []
  response := .idle
  hostData := none
  inReset := false
  inputs := []
  freeCount := 0

end Sys2Proof.Machine
end

