-- ==== Sys2Proof/Machine/Ops.lean ====
section
/-! DEFINITION. The named operations the meanings share: memory, byte lanes and the memory port's two
primitives (20_memory.md R61 to R63, R69), values the spec leaves unspecified, ending a command or an
operation and acknowledging it (60_exceptions.md R200, R206, R207), the register port's answers
(40_host_access.md R120 to R122), and what the host has been shown of the engine's writes (20_memory.md
R75). -/

namespace Sys2Proof.Machine

/-! ## Memory (20_memory.md R60, R61) -/

/-- The number of bytes in the memory space, 2^32 (20_memory.md R61). -/
def memBytes : Nat := 2 ^ 32

/-- What a byte that is not listed reads as. DESIGN CHOICE 0 (log entry 7). -/
def unlistedByte : Byte := 0

/-- The byte at an address (20_memory.md R61). -/
def Memory.read (m : Memory) (a : Nat) : Byte :=
  match m with
  | [] => unlistedByte
  | (k, b) :: rest => if k = a then b else Memory.read rest a

/-- List a byte at its place by rising address. -/
def Memory.insert (m : Memory) (a : Nat) (b : Byte) : Memory :=
  match m with
  | [] => [(a, b)]
  | (k, v) :: rest =>
    if a < k then (a, b) :: (k, v) :: rest
    else if a = k then (a, b) :: rest
    else (k, v) :: Memory.insert rest a b

/-- Unlist a byte. -/
def Memory.erase (m : Memory) (a : Nat) : Memory := m.filter fun c => c.1 != a

/-- Write one byte, keeping the canonical form. An address beyond the space names no byte (20_memory.md
R61), so a write there stores nothing (log entry 24). -/
def Memory.write (m : Memory) (a : Nat) (b : Byte) : Memory :=
  if a < memBytes then
    if b = unlistedByte then m.erase a else m.insert a b
  else m

/-- The canonical form: addresses strictly rising and inside the space, no entry equal to what an unlisted
byte reads as. -/
def Memory.wf : Memory → Bool
  | [] => true
  | (k, b) :: rest =>
    decide (k < memBytes) && decide (b ≠ unlistedByte) && rest.all (fun c => decide (k < c.1)) &&
      Memory.wf rest

/-! ## Byte lanes and the memory port (20_memory.md R62, R63, R69; 40_host_access.md R124) -/

/-- Byte lane `k` of the data bus, bits `8k+7..8k`: the byte at `addr + k` (20_memory.md R69). -/
def lane (k : Nat) (w : Word) : Byte := w.extractLsb' (8 * k) 8

/-- The bus word that carries four bytes, the lowest address in lane 0 (20_memory.md R69). -/
def toLanes (q : Quad) : Word := q.b3 ++ q.b2 ++ q.b1 ++ q.b0

/-- The four bytes that a bus word carries (20_memory.md R69). -/
def ofLanes (w : Word) : Quad := ⟨lane 0 w, lane 1 w, lane 2 w, lane 3 w⟩

/-- The four bytes at an address and above it (00_scope.md R7). -/
def loadQuad (m : Memory) (a : Nat) : Quad :=
  ⟨m.read a, m.read (a + 1), m.read (a + 2), m.read (a + 3)⟩

/-- The bus word a read of four bytes returns, the lowest address in lane 0 (20_memory.md R69). -/
def loadLanes (m : Memory) (a : Nat) : Word :=
  m.read (a + 3) ++ m.read (a + 2) ++ m.read (a + 1) ++ m.read a

/-- Store the four lanes of a bus word at an address and above it (20_memory.md R63, R69). -/
def storeLanes (m : Memory) (a : Nat) (w : Word) : Memory :=
  (((m.write a (lane 0 w)).write (a + 1) (lane 1 w)).write (a + 2) (lane 2 w)).write (a + 3) (lane 3 w)

/-- An address lies in a range. -/
def rangeContains (r : AddrRange) (a : Nat) : Bool := decide (r.lo ≤ a) && decide (a < r.hi)

/-- A range and the addresses `lo ≤ a < hi` have an address in common. -/
def rangeMeets (r : AddrRange) (lo hi : Nat) : Bool := decide (max r.lo lo < min r.hi hi)

/-- `Backed(a)` (00_scope.md R5, 20_memory.md R61). -/
def backed (p : Platform) (a : Nat) : Bool := !p.unbacked.any fun r => rangeContains r a

/-- All four bytes of an access are backed (20_memory.md R62, R63). -/
def backedQuad (p : Platform) (a : Nat) : Bool :=
  backed p a && backed p (a + 1) && backed p (a + 2) && backed p (a + 3)

/-- Every byte `lo ≤ a < hi` is `Ordinary` (00_scope.md R5, 70_reset_and_hazards.md R245). -/
def ordinaryRange (p : Platform) (lo hi : Nat) : Bool := !p.unordinary.any fun r => rangeMeets r lo hi

/-- `MemRead(addr, 4)`: the four bytes, or no value for `BusError` (20_memory.md R62). -/
def memRead (p : Platform) (m : Memory) (a : Nat) : Option Quad :=
  if backedQuad p a then some (ofLanes (loadLanes m a)) else none

/-! ## Values the spec leaves unspecified (93_implementation_defined.md S1 to S5) -/

/-- Give the `len` bytes from `base` up the free values drawn from the `first`-th on. -/
def fillFree (m : Memory) (base len first : Nat) : Memory :=
  match len with
  | 0 => m
  | n + 1 => (fillFree m base n first).write (base + n) (Config.freeByte (first + n))

/-- The `len` bytes from `base` up become unspecified, each any value (20_memory.md R63,
70_reset_and_hazards.md R237, R246). -/
def makeUnspecified (base len : Nat) (s : State) : State :=
  { s with mem := fillFree s.mem base len s.freeCount, freeCount := s.freeCount + len }

/-- Four free bytes drawn from the `first`-th on (70_reset_and_hazards.md R246). -/
def freeQuad (first : Nat) : Quad :=
  ⟨Config.freeByte first, Config.freeByte (first + 1), Config.freeByte (first + 2),
    Config.freeByte (first + 3)⟩

/-- A snapshot of free values drawn from the `first`-th on (10_state.md R36, 70_reset_and_hazards.md
R235). -/
def freeSnapshot (first : Nat) : Snapshot where
  srcBase := Config.freeWord first
  srcStride := Config.freeWord (first + 1)
  srcW := (Config.freeWord (first + 2)).extractLsb' 0 16
  srcH := (Config.freeWord (first + 2)).extractLsb' 16 16
  dstBase := Config.freeWord (first + 3)
  dstW := (Config.freeWord (first + 4)).extractLsb' 0 16
  dstH := (Config.freeWord (first + 4)).extractLsb' 16 16
  fmt := (Config.freeWord (first + 5)).extractLsb' 0 2

/-- How many words `freeSnapshot` draws. -/
def freeSnapshotWords : Nat := 6

/-! ## The end of a command or an operation, and its acknowledgement (60_exceptions.md R200, R206, R207) -/

/-- End the current command or operation with a code: the one way the block reports, whether an error or
success (60_exceptions.md R200, R206; `Finish`, `Illegal` and `StopBus` of 41_commands.md R143, R146 and
42_resize_datapath.md R170). -/
def endOperation (code : ErrCode) (s : State) : State :=
  { s with regs := { s.regs with busy := false, done := true, err := code } }

/-- Acknowledge a report (41_commands.md R145 `Clear`, 60_exceptions.md R207). -/
def acknowledge (s : State) : State :=
  { s with regs := { s.regs with done := false, err := .none, ign := false } }

/-! ## The register port's answers (40_host_access.md R120 to R122) -/

/-- Answer a transaction. -/
def respond (r : Response) (s : State) : State := { s with response := r }

/-! ## What the host has been shown (20_memory.md R75 items 3 and 4, R76) -/

/-- The host is from now on shown the engine's writes of the `PROGRESS` pixels written by the current or
last operation: their old bytes can no longer be read (20_memory.md R75 items 3 and 4). -/
def showWritten (s : State) : State :=
  { s with stale := s.stale.filter fun v =>
      !(decide (s.snap.dstBase.toNat ≤ v.addr) &&
        decide (v.addr < s.snap.dstBase.toNat + 4 * s.regs.progress.toNat)) }

/-- `DONE = 1` reports an operation, not an illegal command word (20_memory.md R75 item 4 "for an
operation", 41_commands.md R146). After a rejected or empty `RESIZE` no pixel is counted, so nothing hangs
on the answer. DEDUCED (log entry 13), safe: fewer reads order the host's view. -/
def reportsOperation (r : Regs) : Bool := r.done && decide (r.err ≠ .illegalCmd)

end Sys2Proof.Machine
end

