-- ==== Sys2Proof/Machine/Flags.lean ====
section
/-! DEFINITION. The status word, the codes of `STATUS.ERR` and the interrupt output: the block's only
flags (10_state.md R29 to R32, R40, R41; 60_exceptions.md R201, R205). -/

namespace Sys2Proof.Machine

/-- The number of an error code (60_exceptions.md R201). -/
def ErrCode.code : ErrCode → BitVec 4
  | .none => 0
  | .format => 1
  | .emptySrc => 2
  | .stride => 3
  | .align => 4
  | .range => 5
  | .overlap => 6
  | .bus => 7
  | .illegalCmd => 8

/-- The word a read of `STATUS` returns: BUSY in bit 0, DONE in bit 1, IGN in bit 2, ERR in bits 7..4,
every other bit 0 (40_host_access.md R120, 10_state.md R20). -/
def statusWord (r : Regs) : Word :=
  0#24 ++ r.err.code ++ 0#1 ++ BitVec.ofBool r.ign ++ BitVec.ofBool r.done ++ BitVec.ofBool r.busy

/-- The interrupt output `IRQ`, an active-high level (60_exceptions.md R205, 10_state.md R40). -/
def irq (s : State) : Bool := s.regs.irqEn && s.regs.done

end Sys2Proof.Machine
end

