-- ==== Sys2Proof/Machine/Operands.lean ====
section
/-! DEFINITION. The operands of an operation: the snapshot and its fields (10_state.md R36, 30_encoding.md
R96), pixel addresses and extents (20_memory.md R64 to R67), the coordinate mapping (42_resize_datapath.md
R161 to R163) and the channel orders (10_state.md R45). All arithmetic is on exact integers (00_scope.md
R6). -/

namespace Sys2Proof.Machine

/-! ## The snapshot (10_state.md R36) -/

/-- The snapshot of the configuration registers (10_state.md R36). -/
def takeSnapshot (r : Regs) : Snapshot where
  srcBase := r.srcBase
  srcStride := r.srcStride
  srcW := r.srcSize.extractLsb' 0 16
  srcH := r.srcSize.extractLsb' 16 16
  dstBase := r.dstBase
  dstW := r.dstSize.extractLsb' 0 16
  dstH := r.dstSize.extractLsb' 16 16
  fmt := r.fmt

/-- The number of destination pixels, `DST_W*DST_H` (10_state.md R37). -/
def pixelCount (sn : Snapshot) : Nat := sn.dstW.toNat * sn.dstH.toNat

/-! ## Addresses and extents (20_memory.md R64 to R67) -/

/-- `SrcAddr(px, py)` (20_memory.md R64). -/
def srcAddr (sn : Snapshot) (px py : Nat) : Nat :=
  sn.srcBase.toNat + py * sn.srcStride.toNat + 4 * px

/-- `DstAddr(x, y)` (20_memory.md R65). -/
def dstAddr (sn : Snapshot) (x y : Nat) : Nat :=
  sn.dstBase.toNat + 4 * (y * sn.dstW.toNat + x)

/-- `S0`, where the source extent starts (20_memory.md R66). -/
def srcStart (sn : Snapshot) : Nat := sn.srcBase.toNat

/-- `S1`, where the source extent ends; defined when neither source size is 0 (20_memory.md R66). -/
def srcEnd (sn : Snapshot) : Nat :=
  sn.srcBase.toNat + (sn.srcH.toNat - 1) * sn.srcStride.toNat + 4 * sn.srcW.toNat

/-- `D0`, where the destination extent starts (20_memory.md R67). -/
def dstStart (sn : Snapshot) : Nat := sn.dstBase.toNat

/-- `D1`, where the destination extent ends (20_memory.md R67). -/
def dstEnd (sn : Snapshot) : Nat := sn.dstBase.toNat + 4 * sn.dstW.toNat * sn.dstH.toNat

/-- An address lies in the source extent (20_memory.md R66). -/
def inSource (sn : Snapshot) (a : Nat) : Bool := decide (srcStart sn ≤ a) && decide (a < srcEnd sn)

/-- An address lies in the destination extent (20_memory.md R67). -/
def inDestination (sn : Snapshot) (a : Nat) : Bool :=
  decide (dstStart sn ≤ a) && decide (a < dstEnd sn)

/-- Both extents are ordinary memory (70_reset_and_hazards.md R245). -/
def ordinaryExtents (p : Platform) (sn : Snapshot) : Bool :=
  ordinaryRange p (srcStart sn) (srcEnd sn) && ordinaryRange p (dstStart sn) (dstEnd sn)

/-! ## Coordinate mapping (42_resize_datapath.md R161 to R163) -/

/-- One axis of the mapping: base index `s`, fraction numerator `f` over the denominator `D`, and the
neighbour step `e` (42_resize_datapath.md R162). -/
structure Axis where
  base : Nat
  frac : Nat
  denom : Nat
  step : Nat
  deriving DecidableEq, Repr

/-- The numerator `N = (2i+1)*n_src - n_new` of the mapped coordinate, signed (42_resize_datapath.md
R161). -/
def axisNumerator (i nNew nSrc : Nat) : Int := (2 * (i : Int) + 1) * nSrc - nNew

/-- `Axis(i, n_new, n_src)` (42_resize_datapath.md R162). A coordinate left of or above the first pixel's
centre takes index 0 with fraction 0; the step is 1 except at the last index (R163). -/
def axis (i nNew nSrc : Nat) : Axis :=
  let n := axisNumerator i nNew nSrc
  let d := 2 * nNew
  let s := if n < 0 then 0 else n.toNat / d
  let f := if n < 0 then 0 else n.toNat % d
  { base := s, frac := f, denom := d, step := if (s : Int) < (nSrc : Int) - 1 then 1 else 0 }

/-! ## Channel order (10_state.md R45) -/

/-- A decoded pixel (00_scope.md R8). -/
structure Pixel where
  r : Byte
  g : Byte
  b : Byte
  a : Byte
  deriving DecidableEq, Repr

/-- The three channel orders (10_state.md R45). -/
inductive Format where
  | rgba32
  | argb32
  | bgra32
  deriving DecidableEq, Repr

/-- The channel order of a format code; code 3 is reserved and has none (10_state.md R27, R46). -/
def Format.ofCode (fmt : BitVec 2) : Option Format :=
  match fmt with
  | 0#2 => some .rgba32
  | 1#2 => some .argb32
  | 2#2 => some .bgra32
  | 3#2 => none

/-- `Decode(fmt, bytes)` (10_state.md R45). -/
def decodePixel (f : Format) (q : Quad) : Pixel :=
  match f with
  | .rgba32 => { r := q.b0, g := q.b1, b := q.b2, a := q.b3 }
  | .argb32 => { a := q.b0, r := q.b1, g := q.b2, b := q.b3 }
  | .bgra32 => { b := q.b0, g := q.b1, r := q.b2, a := q.b3 }

/-- `Encode(fmt, pixel)`, the inverse of `Decode` (10_state.md R45). -/
def encodePixel (f : Format) (p : Pixel) : Quad :=
  match f with
  | .rgba32 => { b0 := p.r, b1 := p.g, b2 := p.b, b3 := p.a }
  | .argb32 => { b0 := p.a, b1 := p.r, b2 := p.g, b3 := p.b }
  | .bgra32 => { b0 := p.b, b1 := p.g, b2 := p.r, b3 := p.a }

end Sys2Proof.Machine
end

