-- ==== Sys2Proof/Machine/Command.lean ====
section
/-! DEFINITION. The command words `NOP`, `RESIZE` and `CLEAR`, a word written while the engine is busy, and
an illegal word (41_commands.md R140 to R146). -/

namespace Sys2Proof.Machine

/-! ## Validation (41_commands.md R143, R144) -/

/-- How a taken `RESIZE` goes on (00_scope.md section 6, "accepted", "rejected", "empty"). -/
inductive Verdict where
  | accepted
  | empty
  | rejected (code : ErrCode)
  deriving DecidableEq, Repr

/-- The checks of `RESIZE`, in their order; the first that fails decides (41_commands.md R143). -/
def validate (sn : Snapshot) : Verdict :=
  if sn.fmt = 3#2 then .rejected .format
  else if sn.dstW = 0 ∨ sn.dstH = 0 then .empty
  else if sn.srcW = 0 ∨ sn.srcH = 0 then .rejected .emptySrc
  else if sn.srcStride.toNat < 4 * sn.srcW.toNat then .rejected .stride
  else if sn.srcBase.toNat % 4 ≠ 0 ∨ sn.srcStride.toNat % 4 ≠ 0 ∨ sn.dstBase.toNat % 4 ≠ 0 then
    .rejected .align
  else if memBytes < srcEnd sn ∨ memBytes < dstEnd sn then .rejected .range
  else if srcStart sn < dstEnd sn ∧ dstStart sn < srcEnd sn then .rejected .overlap
  else .accepted

/-- What `RESIZE` does before it validates: take the snapshot, clear `PROGRESS`, `DONE` and `ERR`, keep
`IGN` (41_commands.md R143). No extent of the new operation has been written yet (70_reset_and_hazards.md
R246). -/
def takeResize (s : State) : State :=
  { s with
    regs := { s.regs with progress := 0, done := false, err := .none }
    snap := takeSnapshot s.regs
    conflict := false }

/-- `Resize()`: what `RESIZE` does while the engine is idle (41_commands.md R143). -/
def startResize (s : State) : State :=
  let t := takeResize s
  match validate t.snap with
  | .accepted => { t with regs := { t.regs with busy := true } }
  | .empty => endOperation .none t
  | .rejected code => endOperation code t

/-! ## Command words (41_commands.md R140, R141) -/

/-- `Busy(w)`: a word written while the engine is busy is discarded, and any but `NOP` sets `IGN`
(41_commands.md R141). -/
def discardCommand (w : Word) (s : State) : State :=
  if w ≠ 0#32 then { s with regs := { s.regs with ign := true } } else s

/-- Take a command word: discard it while the engine is busy, else do `idle` (41_commands.md R140). -/
def submit (w : Word) (idle : State → State) (s : State) : State :=
  if s.regs.busy then discardCommand w s else idle s

/-- `Illegal()`: a word that 30_encoding.md R92 does not list (41_commands.md R146). -/
def illegalWord (s : State) : State := endOperation .illegalCmd s

/-- What an idle engine does with a command word (41_commands.md R140). -/
def idleCommand (w : Word) (s : State) : State :=
  match decodeCommand w with
  | .ok .nop => s
  | .ok .resize => startResize s
  | .ok .clear => acknowledge s
  | .ok (.mmioRd _) => illegalWord s
  | .ok (.mmioWr _ _) => illegalWord s
  | .error _ => illegalWord s

/-- `Command(w)` (41_commands.md R140). -/
def command (w : Word) (s : State) : State := submit w (idleCommand w) s

/-! ## The three commands, each answered OKAY as the `MMIO_WR` that carries it (40_host_access.md R121) -/

/-- `NOP` has no effect, idle or busy (41_commands.md R142). -/
def execNop (s : State) : Host.Outcome State Fault Refusal :=
  .next (respond (.okay none) (submit nopWord (fun t => t) s))

/-- `RESIZE` (41_commands.md R143; R141 while busy). -/
def execResize (s : State) : Host.Outcome State Fault Refusal :=
  .next (respond (.okay none) (submit resizeWord startResize s))

/-- `CLEAR` (41_commands.md R145; R141 while busy). -/
def execClear (s : State) : Host.Outcome State Fault Refusal :=
  .next (respond (.okay none) (submit clearWord acknowledge s))

/-- An illegal command word, answered OKAY all the same (40_host_access.md R121; 41_commands.md R141,
R146). -/
def illegalCommand (w : Word) (s : State) : State := respond (.okay none) (submit w illegalWord s)

end Sys2Proof.Machine
end

