-- ==== Sys2Proof/Machine/Bus.lean ====
section
/-! DEFINITION. The register port's two instructions, `MMIO_RD` and `MMIO_WR`, and the invalid transaction
(40_host_access.md R120 to R122). -/

namespace Sys2Proof.Machine

/-- The constant that `ID` reads (10_state.md R33). -/
def idValue : Word := 0x42524531

/-- The host address of a register, where the platform maps the window (00_scope.md R5, 10_state.md R20).
The port itself sees only `PADDR` (92_eei_decisions.md D36; log entry 19). -/
def hostAddress (reg : Reg) : Nat := Config.engineBase.toNat + reg.offset.toNat

/-- The word a read of a register returns (40_host_access.md R120). -/
def readReg (r : Regs) : Reg → Word
  | .cmd => 0
  | .status => statusWord r
  | .ctrl => 0#31 ++ BitVec.ofBool r.irqEn
  | .srcBase => r.srcBase
  | .srcStride => r.srcStride
  | .srcSize => r.srcSize
  | .dstBase => r.dstBase
  | .dstSize => r.dstSize
  | .format => 0#30 ++ r.fmt
  | .progress => r.progress
  | .id => idValue
  | .reserved _ => 0

/-- The registers after a write of a register other than `CMD` (40_host_access.md R121). A read-only or
reserved register ignores it (10_state.md R20, R35). -/
def writeReg (r : Regs) (reg : Reg) (w : Word) : Regs :=
  match reg with
  | .ctrl => { r with irqEn := w.getLsbD 0 }
  | .srcBase => { r with srcBase := w }
  | .srcStride => { r with srcStride := w }
  | .srcSize => { r with srcSize := w }
  | .dstBase => { r with dstBase := w }
  | .dstSize => { r with dstSize := w }
  | .format => { r with fmt := w.extractLsb' 0 2 }
  | .cmd => r
  | .status => r
  | .progress => r
  | .id => r
  | .reserved _ => r

/-- What a register read shows the host of the engine's memory writes: a `PROGRESS` read the pixels it
counts, a `STATUS` read with `DONE = 1` for an operation all that operation wrote (20_memory.md R75 items 3
and 4, R76). It changes no register. -/
def orderRead (reg : Reg) (s : State) : State :=
  match reg with
  | .progress => showWritten s
  | .status => if reportsOperation s.regs then showWritten s else s
  | _ => s

/-- `MMIO_RD` (40_host_access.md R120). -/
def execMmioRd (reg : Reg) (s : State) : Host.Outcome State Fault Refusal :=
  .next (respond (.okay (some (readReg s.regs reg))) (orderRead reg s))

/-- `MMIO_WR` (40_host_access.md R121): a write to `CMD` submits its word as a command. -/
def execMmioWr (reg : Reg) (w : Word) (s : State) : Host.Outcome State Fault Refusal :=
  match reg with
  | .cmd => .next (respond (.okay none) (command w s))
  | _ => .next (respond (.okay none) { s with regs := writeReg s.regs reg w })

/-- An invalid transaction: `SLVERR`, `PRDATA = 0` for a read, and no change (40_host_access.md R122). -/
def invalidTransaction (write : Bool) (s : State) : State :=
  respond (.slverr (if write then none else some 0)) s

end Sys2Proof.Machine
end

