-- ==== Sys2Proof/Machine/Dispatch.lean ====
section
/-! DEFINITION. One arm per instruction, each one direct call of its meaning. -/

namespace Sys2Proof.Machine

def exec (i : Instr) (s : State) : Host.Outcome State Fault Refusal :=
  match i with
  | .mmioRd reg => Sys2Proof.Machine.execMmioRd reg s
  | .mmioWr reg w => Sys2Proof.Machine.execMmioWr reg w s
  | .nop => Sys2Proof.Machine.execNop s
  | .resize => Sys2Proof.Machine.execResize s
  | .clear => Sys2Proof.Machine.execClear s

end Sys2Proof.Machine
end

