-- ==== Sys2Proof/Machine/Engine.lean ====
section
/-! DEFINITION. The engine's step `PIXEL_STEP`: the four neighbours, the blend, the alpha rule and the
write of one destination pixel (42_resize_datapath.md R164 to R170). -/

namespace Sys2Proof.Machine

/-! ## Neighbours (42_resize_datapath.md R164 to R166) -/

/-- The four decoded neighbours of a destination pixel (42_resize_datapath.md R164). -/
structure Neighbours where
  p00 : Pixel
  p10 : Pixel
  p01 : Pixel
  p11 : Pixel
  deriving DecidableEq, Repr

/-- Read and decode one neighbour, or no value for `BusError` (42_resize_datapath.md R165, R166). -/
def readNeighbour (p : Platform) (m : Memory) (sn : Snapshot) (f : Format) (px py : Nat) : Option Pixel :=
  (memRead p m (srcAddr sn px py)).map (decodePixel f)

/-- The four neighbours in the order `p00`, `p10`, `p01`, `p11`; the first `BusError` ends the reads
(42_resize_datapath.md R164, R165, R170). -/
def gather (p : Platform) (m : Memory) (sn : Snapshot) (f : Format) (ax ay : Axis) : Option Neighbours :=
  (readNeighbour p m sn f ax.base ay.base).bind fun p00 =>
  (readNeighbour p m sn f (ax.base + ax.step) ay.base).bind fun p10 =>
  (readNeighbour p m sn f ax.base (ay.base + ay.step)).bind fun p01 =>
  (readNeighbour p m sn f (ax.base + ax.step) (ay.base + ay.step)).bind fun p11 =>
  some ⟨p00, p10, p01, p11⟩

/-! ## Blend (42_resize_datapath.md R167, R168) -/

/-- The weighted sum of one colour channel of the four neighbours (42_resize_datapath.md R167). -/
def colourSum (ax ay : Axis) (c00 c10 c01 c11 : Byte) : Nat :=
  c00.toNat * ((ax.denom - ax.frac) * (ay.denom - ay.frac)) +
  c10.toNat * (ax.frac * (ay.denom - ay.frac)) +
  c01.toNat * ((ax.denom - ax.frac) * ay.frac) +
  c11.toNat * (ax.frac * ay.frac)

/-- One colour channel: the weighted mean, rounded down (42_resize_datapath.md R167). -/
def blendChannel (ax ay : Axis) (c00 c10 c01 c11 : Byte) : Byte :=
  BitVec.ofNat 8 (colourSum ax ay c00 c10 c01 c11 / (ax.denom * ay.denom))

/-- The alpha rule: 0 next to a fully transparent neighbour, else the base neighbour's alpha unblended
(42_resize_datapath.md R168). -/
def blendAlpha (n : Neighbours) : Byte :=
  if n.p10.a = 0 ∨ n.p01.a = 0 ∨ n.p11.a = 0 then 0 else n.p00.a

/-- The destination pixel of four neighbours (42_resize_datapath.md R167, R168). -/
def blend (ax ay : Axis) (n : Neighbours) : Pixel where
  r := blendChannel ax ay n.p00.r n.p10.r n.p01.r n.p11.r
  g := blendChannel ax ay n.p00.g n.p10.g n.p01.g n.p11.g
  b := blendChannel ax ay n.p00.b n.p10.b n.p01.b n.p11.b
  a := blendAlpha n

/-! ## The step (42_resize_datapath.md R170) -/

/-- The column of pixel `i` in the row-major scan (10_state.md R37). -/
def scanX (sn : Snapshot) (i : Nat) : Nat := i % sn.dstW.toNat

/-- The row of pixel `i` in the row-major scan (10_state.md R37). -/
def scanY (sn : Snapshot) (i : Nat) : Nat := i / sn.dstW.toNat

/-- The mapping of pixel `i` along x (42_resize_datapath.md R162). -/
def axisX (sn : Snapshot) (i : Nat) : Axis := axis (scanX sn i) sn.dstW.toNat sn.srcW.toNat

/-- The mapping of pixel `i` along y (42_resize_datapath.md R162). -/
def axisY (sn : Snapshot) (i : Nat) : Axis := axis (scanY sn i) sn.dstH.toNat sn.srcH.toNat

/-- The address of destination pixel `i` (20_memory.md R65, 42_resize_datapath.md R170). -/
def pixelAddr (sn : Snapshot) (i : Nat) : Nat := dstAddr sn (scanX sn i) (scanY sn i)

/-- The four bytes to write for destination pixel `i`, or no value when a read answers `BusError`
(42_resize_datapath.md R165 to R168). -/
def pixelBytes (p : Platform) (m : Memory) (sn : Snapshot) (i : Nat) : Option Quad :=
  (Format.ofCode sn.fmt).bind fun f =>
  (gather p m sn f (axisX sn i) (axisY sn i)).map fun n =>
  encodePixel f (blend (axisX sn i) (axisY sn i) n)

/-- The bytes a step writes where it computed `q`: after a conflicting write to an extent they are
unspecified (70_reset_and_hazards.md R246). -/
def bytesToWrite (q : Quad) (s : State) : Quad := if s.conflict then freeQuad s.freeCount else q

/-- How many free values `bytesToWrite` draws. -/
def bytesDrawn (s : State) : Nat := if s.conflict then 4 else 0

/-- Write four bytes to a destination pixel whose bytes are all backed, keeping the old bytes for host
reads that need not see the write yet (20_memory.md R63, R71, R75). -/
def storePixel (a : Nat) (q : Quad) (s : State) : State :=
  { s with
    mem := storeLanes s.mem a (toLanes q)
    stale := ⟨a, loadQuad s.mem a⟩ :: s.stale
    freeCount := s.freeCount + bytesDrawn s }

/-- Count a written pixel, and complete the operation after the last (42_resize_datapath.md R170). -/
def countPixel (s : State) : State :=
  let t := { s with regs := { s.regs with progress := s.regs.progress + 1 } }
  if s.regs.progress.toNat + 1 = pixelCount s.snap then endOperation .none t else t

/-- `StopBus()`: the operation ends with BUS, `PROGRESS` unchanged (42_resize_datapath.md R170). -/
def stopBus (s : State) : State := endOperation .bus s

/-- Write the pixel at the scan position: `MemWrite`, then count it; a `BusError` leaves its four bytes
unspecified and stops the operation (20_memory.md R63, 42_resize_datapath.md R170). -/
def writePixel (q : Quad) (s : State) : State :=
  let a := pixelAddr s.snap s.regs.progress.toNat
  if backedQuad s.platform a then countPixel (storePixel a (bytesToWrite q s) s)
  else stopBus (makeUnspecified a 4 s)

/-- The engine holds an operation that a `RESIZE` accepted and that has a pixel left (41_commands.md R143,
10_state.md R37). -/
def validOperation (s : State) : Bool :=
  decide (validate s.snap = .accepted) && decide (s.regs.progress.toNat < pixelCount s.snap)

/-- `PixelStep()` of a busy engine (42_resize_datapath.md R170). Extents that are not ordinary memory get
no meaning (70_reset_and_hazards.md R245). -/
def pixelStep (s : State) : Host.Outcome State Fault Refusal :=
  if validOperation s then
    if ordinaryExtents s.platform s.snap then
      match pixelBytes s.platform s.mem s.snap s.regs.progress.toNat with
      | some q => .next (writePixel q s)
      | none => .next (stopBus s)
    else .refused .nonOrdinaryMemory
  else .fault .noValidOperation

/-- The engine's turn: a `PIXEL_STEP` exactly when `BUSY = 1`, else no step (42_resize_datapath.md R170,
60_exceptions.md R216). -/
def engineTurn (s : State) : Host.Outcome State Fault Refusal :=
  if s.regs.busy then pixelStep s else .next s

end Sys2Proof.Machine
end

