-- ==== Sys2Proof/Machine/Environment.lean ====
section
/-! DEFINITION. What the outside world does beside the register port: memory accesses of the host and of
other agents (20_memory.md R75; 70_reset_and_hazards.md R243, R246), taking the interrupt, and reset
(70_reset_and_hazards.md R235 to R238). -/

namespace Sys2Proof.Machine

/-! ## Memory writes of the host and other agents (70_reset_and_hazards.md R246) -/

/-- One byte of four, by its distance from the lowest address. -/
def getByte (q : Quad) (k : Nat) : Byte :=
  match k with
  | 0 => q.b0
  | 1 => q.b1
  | 2 => q.b2
  | _ => q.b3

/-- Replace one byte of a pixel's four, by its distance from the pixel's address. -/
def setByte (q : Quad) (k : Nat) (b : Byte) : Quad :=
  match k with
  | 0 => { q with b0 := b }
  | 1 => { q with b1 := b }
  | 2 => { q with b2 := b }
  | 3 => { q with b3 := b }
  | _ => q

/-- An agent's byte is the one every later read of it sees, so it enters a pixel's old bytes too. -/
def patchStale (a : Nat) (b : Byte) (v : StalePixel) : StalePixel :=
  if v.addr ≤ a then { v with old := setByte v.old (a - v.addr) b } else v

/-- One byte of the write itself: it lands as written (70_reset_and_hazards.md R246). At an address that is
not backed the byte becomes unspecified (20_memory.md R63; DESIGN CHOICE, log entry 17). A byte that is not
ordinary is stored like any other (DESIGN CHOICE, log entry 25: the spec gives an agent's own access to such
a byte no effect). -/
def landWrite (a : Nat) (b : Byte) (s : State) : State :=
  if backed s.platform a then
    { s with mem := s.mem.write a b, stale := s.stale.map (patchStale a b) }
  else makeUnspecified a 1 s

/-- Byte `k` of an aligned access, where its lane is written. -/
def landLane (a k : Nat) (lanes : BitVec 4) (q : Quad) (s : State) : State :=
  if lanes.getLsbD k then landWrite (a + k) (getByte q k) s else s

/-- All written bytes of an aligned access of the four bytes at `a` (20_memory.md R71). -/
def landLanes (a : Nat) (lanes : BitVec 4) (q : Quad) (s : State) : State :=
  landLane a 3 lanes q (landLane a 2 lanes q (landLane a 1 lanes q (landLane a 0 lanes q s)))

/-- A write of a byte of an extent of the running operation conflicts with it (70_reset_and_hazards.md
R246). -/
def conflicts (a : Nat) (s : State) : Bool :=
  s.regs.busy && (inSource s.snap a || inDestination s.snap a)

/-- After a conflicting write every destination byte not yet written is unspecified, now and when the
engine comes to write it; `STATUS` and `PROGRESS` go on as if nothing had happened
(70_reset_and_hazards.md R246). -/
def spoilUnwritten (s : State) : State :=
  { makeUnspecified (dstStart s.snap + 4 * s.regs.progress.toNat)
      (4 * (pixelCount s.snap - s.regs.progress.toNat)) s with conflict := true }

/-- Some written byte of an aligned access conflicts with the running operation. -/
def lanesConflict (a : Nat) (lanes : BitVec 4) (s : State) : Bool :=
  lanes.getLsbD 0 && conflicts a s || lanes.getLsbD 1 && conflicts (a + 1) s ||
    lanes.getLsbD 2 && conflicts (a + 2) s || lanes.getLsbD 3 && conflicts (a + 3) s

/-- The host or another agent writes memory in one aligned access, whole between two engine accesses
(20_memory.md R71, 70_reset_and_hazards.md R246). -/
def agentWrite (index : BitVec 30) (lanes : BitVec 4) (q : Quad) (s : State) : State :=
  let a := 4 * index.toNat
  if lanesConflict a lanes s then spoilUnwritten (landLanes a lanes q s) else landLanes a lanes q s

/-! ## Memory reads of the host (20_memory.md R71, R75; 70_reset_and_hazards.md R243) -/

/-- The running operation's result for the pixel at `a`, where the engine has not counted that pixel yet: a
host read may return it early (70_reset_and_hazards.md R243, 93_implementation_defined.md S4). After a
conflicting write it is unspecified (R246); there is none where a read of the pixel answers `BusError`, and
none for memory that is not ordinary (R245). -/
def earlyResult (a : Nat) (s : State) : Option Quad :=
  let i := (a - dstStart s.snap) / 4
  if s.regs.busy && validOperation s && ordinaryExtents s.platform s.snap &&
      decide (s.regs.progress.toNat ≤ i) && decide (i < pixelCount s.snap) &&
      decide (a = pixelAddr s.snap i) then
    (pixelBytes s.platform s.mem s.snap i).map fun q => bytesToWrite q s
  else none

/-- The values a host read of the four bytes at `a` may return: what memory holds, the old bytes of a write
it need not see yet, or the result of a pixel the engine has still to write, whole pixels in each case
(20_memory.md R71, R75; 70_reset_and_hazards.md R243). -/
def visibleQuads (a : Nat) (s : State) : List Quad :=
  loadQuad s.mem a :: (s.stale.filter fun v => decide (v.addr = a)).map StalePixel.old ++
    (earlyResult a s).toList

/-- The host reads four aligned bytes: any one of the visible values (93_implementation_defined.md S4; log
entry 12), or nothing where a byte is not backed (DESIGN CHOICE, log entry 17). A byte that is not ordinary is
read like any other, without effect (DESIGN CHOICE, log entry 25). -/
def hostRead (index : BitVec 30) (s : State) : State :=
  let a := 4 * index.toNat
  let seen := visibleQuads a s
  if backedQuad s.platform a then
    { s with
      hostData := some (seen.getD (Config.freeChoice s.freeCount % seen.length) (loadQuad s.mem a))
      freeCount := s.freeCount + 1 + bytesDrawn s }
  else { s with hostData := none }

/-- The host takes the interrupt that `DONE` drives: it is shown all that the operation wrote
(20_memory.md R75 item 4). While `IRQ` is low there is none to take. -/
def takeInterrupt (s : State) : State :=
  if irq s && reportsOperation s.regs then showWritten s else s

/-! ## Reset (70_reset_and_hazards.md R235 to R238) -/

/-- A reset during an operation leaves every byte of its destination extent unspecified
(70_reset_and_hazards.md R237). -/
def spoilDestination (s : State) : State :=
  if s.regs.busy then makeUnspecified (dstStart s.snap) (4 * pixelCount s.snap) s else s

/-- `RST_N` goes low: every register takes its reset value, the snapshot is unspecified, memory keeps its
contents but for a running operation's destination (70_reset_and_hazards.md R235, R236, R237). -/
def assertReset (s : State) : State :=
  let t := spoilDestination s
  { t with
    regs := .reset
    snap := freeSnapshot t.freeCount
    conflict := false
    response := .idle
    inReset := true
    freeCount := t.freeCount + freeSnapshotWords }

/-- `RST_N` goes high: the block is idle and waits for transactions (70_reset_and_hazards.md R238). -/
def releaseReset (s : State) : State := { s with inReset := false }

end Sys2Proof.Machine
end

