-- ==== Sys2Proof/Machine/Agents.lean ====
section
/-! DEFINITION. Who takes the next step and what it does: decoding and running an input of the register
port, and the machine's choice between its inputs and the engine (00_scope.md R9; 40_host_access.md R126;
70_reset_and_hazards.md R250). -/

namespace Sys2Proof.Machine

/-- Run an encoded input that the port delivers: an instruction by its meaning, anything else by the rule
of its kind (30_encoding.md R94, R97). -/
def runEncoded (e : Encoded) (s : State) : Host.Outcome State Fault Refusal :=
  match decode e with
  | .ok i => exec i s
  | .error (.invalidTransaction write) => .next (invalidTransaction write s)
  | .error (.illegalCommand w) => .next (illegalCommand w s)

/-- The register port: no transaction is answered while reset is held (70_reset_and_hazards.md R235,
93_implementation_defined.md S17). -/
def takePort (e : Encoded) (s : State) : Host.Outcome State Fault Refusal :=
  if s.inReset then .fault .transactionDuringReset else runEncoded e s

/-- A step of the host elsewhere than on the port, which answers `t`: the machine has none while reset is held
(70_reset_and_hazards.md R235; log entry 14). -/
def takeHostStep (t s : State) : Host.Outcome State Fault Refusal :=
  if s.inReset then .fault .hostStepDuringReset else .next t

/-- What each input does (00_scope.md R9). Other agents, the engine's turn and the reset pin are no host
steps: reset does not stop them. -/
def takeInput (i : Input) (s : State) : Host.Outcome State Fault Refusal :=
  match i with
  | .port e => takePort e s
  | .engineTurn => engineTurn s
  | .memWrite .host index lanes q => takeHostStep (agentWrite index lanes q s) s
  | .memWrite .other index lanes q => .next (agentWrite index lanes q s)
  | .memRead index => takeHostStep (hostRead index s) s
  | .irqTaken => takeHostStep (takeInterrupt s) s
  | .resetAssert => .next (assertReset s)
  | .resetRelease => .next (releaseReset s)

/-- The machine's next step: its first input, and with none left the engine's turn, so that a busy engine
always comes to its next `PIXEL_STEP` (70_reset_and_hazards.md R250, R238; log entry 2). -/
def nextStep (s : State) : Host.Outcome State Fault Refusal :=
  match s.inputs with
  | [] => engineTurn s
  | i :: rest => takeInput i { s with inputs := rest }

/-- The state in which an encoded input is the next thing the outside world does, with reset released. -/
def placeEncoded (e : Encoded) (s : State) : State :=
  { s with inputs := .port e :: s.inputs, inReset := false }

/-- The state in which the instruction with these bits, numbered as the opcode table numbers them, is the
next input; bits that name no input place nothing. -/
def placeTableWord (nbits w : Nat) (s : State) : State :=
  match tableEncoded nbits w with
  | some e => placeEncoded e s
  | none => s

end Sys2Proof.Machine
end

