-- ==== Sys2Proof/Machine/Step.lean ====
section
/-! DEFINITION. One step of the machine, and placing an instruction where the step takes its next input. -/

namespace Sys2Proof.Machine

/-- One step (00_scope.md R9). -/
def step (s : State) : Host.Outcome State Fault Refusal := nextStep s

/-- The state whose very next step runs the instruction with these bits: it stands first among the inputs
(log entry 1). -/
def State.withFetchWord (s : State) (nbits w : Nat) : State := placeTableWord nbits w s

end Sys2Proof.Machine
end

