-- ==== Sys2Proof/Safety.lean ====
section
/-! DEFINITION. What claims about runs speak of: the invariant of every reachable state, and stepping
without a stop. -/

namespace Sys2Proof.Machine

/-- What holds of every state a run from reset can reach. -/
structure State.Inv (s : State) : Prop where
  /-- Memory is in its canonical form. -/
  memWf : Memory.wf s.mem = true
  /-- `ERR ≠ 0` implies `DONE = 1` (10_state.md R32). -/
  errDone : s.regs.err ≠ .none → s.regs.done = true
  /-- A running operation has not ended: `DONE = 0` while `BUSY = 1` (10_state.md R29, R30). -/
  busyNotDone : s.regs.busy = true → s.regs.done = false
  /-- The engine is busy only with an operation `RESIZE` accepted, and with a pixel left (10_state.md R29,
  R37). -/
  busyValid : s.regs.busy = true → validOperation s = true
  /-- `PROGRESS` stops at the number of destination pixels (10_state.md R37). -/
  progressBound : s.regs.progress.toNat ≤ pixelCount s.snap
  /-- While reset is held every register has its reset value (70_reset_and_hazards.md R235). -/
  heldReset : s.inReset = true → s.regs = Regs.reset

/-- The first input submits command word `w`: written to `CMD` by a transaction, or put there as a command
word (30_encoding.md R90, 41_commands.md R140). -/
def State.submits (s : State) (w : Word) : Prop :=
  ∃ e rest, s.inputs = .port e :: rest ∧ (e = .command w ∨ decode e = .ok (.mmioWr .cmd w))

/-- The first input writes `w` to a register by a transaction (40_host_access.md R121). -/
def State.writesReg (s : State) (reg : Reg) (w : Word) : Prop :=
  ∃ e rest, s.inputs = .port e :: rest ∧ decode e = .ok (.mmioWr reg w)

/-- The next step is the engine's turn: it is the first input, or no input is left (log entry 2). -/
def State.engineActs (s : State) : Prop := s.inputs = [] ∨ ∃ rest, s.inputs = .engineTurn :: rest

/-- The first input is a step of the host elsewhere than on the register port: it writes memory, reads it, or
takes the interrupt (00_scope.md R9, 20_memory.md R75). -/
def State.hostActsOffPort (s : State) : Prop :=
  ∃ rest, (∃ index lanes q, s.inputs = .memWrite .host index lanes q :: rest) ∨
    (∃ index, s.inputs = .memRead index :: rest) ∨ s.inputs = .irqTaken :: rest

/-- The first input asserts reset. -/
def State.meetsReset (s : State) : Prop := ∃ rest, s.inputs = .resetAssert :: rest

/-- `s` leads to `t` in exactly `n` steps, none of which stops. -/
def runsTo (s : State) (n : Nat) (t : State) : Prop :=
  match n with
  | 0 => s = t
  | k + 1 => ∃ u, step s = .next u ∧ runsTo u k t

end Sys2Proof.Machine
end

