-- ==== Sys2Proof/Certificates/Slice0/Obligations.lean ====
section
/-! DEFINITION. The statements about the model, each a `def Obligations.<Name> : Prop`. -/

open Sys2Proof Sys2Proof.Machine

/-! ## Encoding (30_encoding.md) -/

/-- R92 to R95: decoding an encoded well-formed instruction gives it back, and whatever decodes is
well formed and encodes to the same input (a read carries no `PWDATA`; the encoder's 0 is the model's choice,
log entry 4). -/
def Obligations.DecodeAndEncodeAgree : Prop :=
  (∀ i : Instr, i.wf = true → decode (encode i) = .ok i) ∧
  ∀ (e : Encoded) (i : Instr), decode e = .ok i →
    i.wf = true ∧ encode i = match e with
      | .transaction h d => .transaction h (if h.getLsbD 8 then d else 0)
      | .command w => .command w

/-- R94, R122: a transaction is valid exactly when `PSIZE = 2` and `PADDR[1:0] = 0`; then the mask 0x1C3
tells a read from a write, and any other header answers SLVERR and changes nothing else. -/
def Obligations.TransactionDecode : Prop :=
  ∀ (h : BitVec 9) (d : Word) (s : State),
    (h.extractLsb' 6 2 = 2#2 ∧ h.extractLsb' 0 2 = 0#2 →
      (h.getLsbD 8 = false → h &&& 0x1C3#9 = 0x080#9 ∧
        decode (.transaction h d) = .ok (.mmioRd (Reg.ofIndex (h.extractLsb' 2 4)))) ∧
      (h.getLsbD 8 = true → h &&& 0x1C3#9 = 0x180#9 ∧
        decode (.transaction h d) = .ok (.mmioWr (Reg.ofIndex (h.extractLsb' 2 4)) d))) ∧
    (h.extractLsb' 6 2 ≠ 2#2 ∨ h.extractLsb' 0 2 ≠ 0#2 →
      h &&& 0x1C3#9 ≠ 0x080#9 ∧ h &&& 0x1C3#9 ≠ 0x180#9 ∧
      decode (.transaction h d) = .error (.invalidTransaction (h.getLsbD 8)) ∧
      runEncoded (.transaction h d) s =
        .next { s with response := .slverr (if h.getLsbD 8 then none else some 0) })

/-- R95: `PADDR[5:2]` selects the register, the same for a read and a write. -/
def Obligations.RegisterSelect : Prop :=
  ∀ (k : BitVec 4) (d : Word), ∃ reg : Reg,
    decode (.transaction (0#1 ++ 2#2 ++ k ++ 0#2) d) = .ok (.mmioRd reg) ∧
    decode (.transaction (1#1 ++ 2#2 ++ k ++ 0#2) d) = .ok (.mmioWr reg d) ∧
    reg = match k.toNat with
      | 0 => .cmd
      | 1 => .status
      | 2 => .ctrl
      | 3 => .srcBase
      | 4 => .srcStride
      | 5 => .srcSize
      | 6 => .dstBase
      | 7 => .dstSize
      | 8 => .format
      | 9 => .progress
      | 10 => .id
      | _ => .reserved k

/-- R92: a command word is decoded by exact match on all 32 bits. -/
def Obligations.CommandWordDecode : Prop :=
  decode (.command 0x00000000#32) = .ok .nop ∧ decode (.command 0x00000001#32) = .ok .resize ∧
  decode (.command 0x00000002#32) = .ok .clear ∧
  ∀ w : Word, w ≠ 0x00000000#32 → w ≠ 0x00000001#32 → w ≠ 0x00000002#32 →
    decode (.command w) = .error (.illegalCommand w)

/-- Words written out from R92 and R93 decode to the instructions they stand for: a 32-bit write to offset
0x0C (header 0x18C) and a 32-bit read of offset 0x04 (header 0x084) as R93 has them, a read of `ID` (0x0A8),
and the opcode table's own words. Where a table word holds `PWDATA`, and that 0x180 alone carries the data 0,
is the model's choice (log entry 4). -/
def Obligations.WrittenOutWordsDecode : Prop :=
  decode (.transaction 0b110001100#9 0x1000#32) = .ok (.mmioWr .srcBase 0x1000#32) ∧
  decode (.transaction 0b010000100#9 0#32) = .ok (.mmioRd .status) ∧
  decode (.transaction 0b010101000#9 0#32) = .ok (.mmioRd .id) ∧
  decodeTableWord 16 0x080 = some (.mmioRd .cmd) ∧ decodeTableWord 16 0x180 = some (.mmioWr .cmd 0) ∧
  decodeTableWord 32 0 = some .nop ∧ decodeTableWord 32 1 = some .resize ∧
  decodeTableWord 32 2 = some .clear

/-! ## Steps -/

/-- A step whose first input decodes to an instruction runs that instruction, with the input taken off the
list; nothing else is added around it (the list of inputs is the model's choice, log entries 1 and 2). -/
def Obligations.StepRunsDecodedInstruction : Prop :=
  ∀ (s : State) (e : Encoded) (rest : List Input) (i : Instr), s.inputs = .port e :: rest →
    s.inReset = false → decode e = .ok i → step s = exec i { s with inputs := rest }

/-- An instruction placed by its table word is what the very next step runs. How a word is placed is the
model's choice (log entries 1 and 4). -/
def Obligations.PlacedWordRunsNext : Prop :=
  ∀ (s : State) (nbits w : Nat) (i : Instr), decodeTableWord nbits w = some i →
    step (s.withFetchWord nbits w) = exec i { s with inReset := false }

/-- R90, R140: a word written to `CMD` by a transaction (header 0x180) and the same command word are one
input, legal or not, busy or idle, in reset or not. That a bare command word may stand on the port is the
model's choice (log entry 3). -/
def Obligations.WriteToCmdIsItsCommandWord : Prop :=
  ∀ (s : State) (w : Word) (rest : List Input),
    step { s with inputs := .port (.transaction 0x180#9 w) :: rest } =
      step { s with inputs := .port (.command w) :: rest }

/-- R216, R238: an idle machine with no input takes no step and keeps everything; the model answers its own
state (model's choice, log entry 2). -/
def Obligations.IdleMachineWaits : Prop :=
  ∀ s : State, s.inputs = [] → s.regs.busy = false → step s = .next s

/-- R235 and 93_implementation_defined.md S17: a transaction or command word while reset is held gets no
response, and the machine has no other host step then either: no memory write or read of the host, and no
taking of the interrupt. That each is a fault by name is the model's choice (log entry 14). -/
def Obligations.TransactionDuringResetStops : Prop :=
  ∀ s : State, s.inReset = true →
    (∀ (e : Encoded) (rest : List Input), s.inputs = .port e :: rest →
      step s = .fault .transactionDuringReset) ∧
    (s.hostActsOffPort → step s = .fault .hostStepDuringReset)

/-! ## Register reads and writes (40_host_access.md) -/

/-- R120: in every state a read of every register is answered OKAY with that register's word, and changes
nothing but the answer and, for `STATUS` and `PROGRESS`, what the host has been shown of the engine's
writes (R75), a record that is the model's own (log entries 12 and 13); its header is `0x080` plus the
register's offset. -/
def Obligations.RegisterReadAnswers : Prop :=
  ∀ (reg : Reg) (s : State),
    (reg.wf = true → ∀ d, decode (.transaction (0x080#9 + reg.offset.setWidth 9) d) = .ok (.mmioRd reg)) ∧
    ∃ (v : Word) (shown : List StalePixel),
      exec (.mmioRd reg) s = .next { s with response := .okay (some v), stale := shown } ∧
      (reg ≠ .status → reg ≠ .progress → shown = s.stale) ∧ (∀ p ∈ shown, p ∈ s.stale) ∧
      match reg with
      | .cmd => v = 0
      | .status => v.toNat = s.regs.busy.toNat + 2 * s.regs.done.toNat + 4 * s.regs.ign.toNat +
          16 * s.regs.err.code.toNat
      | .ctrl => v.toNat = s.regs.irqEn.toNat
      | .srcBase => v = s.regs.srcBase
      | .srcStride => v = s.regs.srcStride
      | .srcSize => v = s.regs.srcSize
      | .dstBase => v = s.regs.dstBase
      | .dstSize => v = s.regs.dstSize
      | .format => v.toNat = s.regs.fmt.toNat
      | .progress => v = s.regs.progress
      | .id => v = 0x42524531#32
      | .reserved _ => v = 0

/-- R121: in every state a write of a register other than `CMD` is answered OKAY, stores its word with the
masks of R27 and R28, is ignored by read-only and reserved registers, and changes nothing else; a write of
`CMD` does what its command word does. -/
def Obligations.RegisterWriteStores : Prop :=
  ∀ (reg : Reg) (w : Word) (s : State),
    (reg.wf = true → decode (.transaction (0x180#9 + reg.offset.setWidth 9) w) = .ok (.mmioWr reg w)) ∧
    (reg = .cmd → exec (.mmioWr reg w) s = .next { command w s with response := .okay none }) ∧
    (reg ≠ .cmd → ∃ regs : Regs,
      exec (.mmioWr reg w) s = .next { s with response := .okay none, regs := regs } ∧
      match reg with
      | .ctrl => regs = { s.regs with irqEn := w.getLsbD 0 }
      | .srcBase => regs = { s.regs with srcBase := w }
      | .srcStride => regs = { s.regs with srcStride := w }
      | .srcSize => regs = { s.regs with srcSize := w }
      | .dstBase => regs = { s.regs with dstBase := w }
      | .dstSize => regs = { s.regs with dstSize := w }
      | .format => regs = { s.regs with fmt := w.extractLsb' 0 2 }
      | .cmd => False
      | .status => regs = s.regs
      | .progress => regs = s.regs
      | .id => regs = s.regs
      | .reserved _ => regs = s.regs)

/-- R22 to R28, R33, R35: what a read returns after a write of the same register: the word written for the
five full registers, its bits [0] and [1:0] for `CTRL` and `FORMAT`, and for a read-only or reserved
register what it read before. -/
def Obligations.ReadBackAfterWrite : Prop :=
  ∀ (reg : Reg) (w : Word) (s : State), reg ≠ .cmd → ∃ t u v,
    exec (.mmioWr reg w) s = .next t ∧ exec (.mmioRd reg) t = .next u ∧ u.response = .okay (some v) ∧
    ((reg = .srcBase ∨ reg = .srcStride ∨ reg = .srcSize ∨ reg = .dstBase ∨ reg = .dstSize) → v = w) ∧
    (reg = .ctrl → v = w &&& 1#32) ∧ (reg = .format → v = w &&& 3#32) ∧
    ((reg = .status ∨ reg = .progress ∨ reg = .id ∨ ∃ k, reg = .reserved k) →
      ∃ r, exec (.mmioRd reg) s = .next r ∧ r.response = .okay (some v))

/-! ## Commands (41_commands.md) -/

/-- R141, R242: while `BUSY = 1` a word written to `CMD` has no effect but to set `IGN`, and not even that
when it is 0; `NOP`, `RESIZE` and `CLEAR` follow the same rule. -/
def Obligations.CommandWhileBusy : Prop :=
  ∀ (w : Word) (s : State), s.regs.busy = true →
    exec (.mmioWr .cmd w) s = .next { s with
      response := .okay none
      regs := if w = 0#32 then s.regs else { s.regs with ign := true } } ∧
    exec .nop s = .next { s with response := .okay none } ∧
    exec .resize s = .next { s with response := .okay none, regs := { s.regs with ign := true } } ∧
    exec .clear s = .next { s with response := .okay none, regs := { s.regs with ign := true } }

/-- R140, R146: while idle a word written to `CMD` does what the command it encodes does; a word that
encodes none sets `DONE` and `ERR = ILLEGAL_CMD` and changes nothing else, `PROGRESS`, `IGN`, the snapshot
and memory among what stays, and raises `IRQ` if it is enabled. That the word may also stand on the port by
itself is the model's choice (log entry 3). -/
def Obligations.CommandWhileIdle : Prop :=
  ∀ (w : Word) (s : State), s.regs.busy = false →
    (w = 0#32 → exec (.mmioWr .cmd w) s = exec .nop s) ∧
    (w = 1#32 → exec (.mmioWr .cmd w) s = exec .resize s) ∧
    (w = 2#32 → exec (.mmioWr .cmd w) s = exec .clear s) ∧
    (w ≠ 0#32 → w ≠ 1#32 → w ≠ 2#32 →
      exec (.mmioWr .cmd w) s = .next { s with
        response := .okay none
        regs := { s.regs with done := true, err := .illegalCmd } } ∧
      irq { s with regs := { s.regs with done := true, err := .illegalCmd } } = s.regs.irqEn ∧
      runEncoded (.command w) s = exec (.mmioWr .cmd w) s)

/-- R142: `NOP`, command word 0x00000000, has no effect, idle or busy: only its answer changes. -/
def Obligations.NopHasNoEffect : Prop :=
  decode (.command 0x00000000#32) = .ok .nop ∧
  ∀ s : State, exec .nop s = .next { s with response := .okay none } ∧
    irq { s with response := .okay none } = irq s

/-- R145: `CLEAR`, command word 0x00000002, clears `DONE`, `ERR` and `IGN` while idle and nothing else, so
that `IRQ` falls; while busy it is discarded and sets `IGN` (R141). -/
def Obligations.ClearAcknowledges : Prop :=
  decode (.command 0x00000002#32) = .ok .clear ∧
  ∀ s : State, ∃ t, exec .clear s = .next t ∧
    (s.regs.busy = false → irq t = false ∧ t = { s with
      response := .okay none
      regs := { s.regs with done := false, err := .none, ign := false } }) ∧
    (s.regs.busy = true → t = { s with
      response := .okay none
      regs := { s.regs with ign := true } })

/-- R143: an idle `RESIZE` takes the snapshot of the configuration registers, sets `PROGRESS` to 0, and
either sets `BUSY` or ends at once with `DONE` and the code of the first check that fails; `IGN`, the
configuration registers, `CTRL` and all of memory stay. -/
def Obligations.ResizeStarts : Prop :=
  ∀ s : State, s.regs.busy = false →
    exec .resize s = .next { s with
      response := .okay none
      snap := takeSnapshot s.regs
      conflict := false
      regs := { s.regs with
        progress := 0
        busy := decide (validate (takeSnapshot s.regs) = .accepted)
        done := decide (validate (takeSnapshot s.regs) ≠ .accepted)
        err := match validate (takeSnapshot s.regs) with
          | .rejected code => code
          | .empty => .none
          | .accepted => .none } }

/-- R143 steps 1 to 7, R203: which check decides, in terms of the snapshot's numbers: FORMAT, the empty
destination, EMPTY_SRC, STRIDE, ALIGN, RANGE, OVERLAP, and acceptance when none of them does. -/
def Obligations.ResizeChecksInOrder : Prop :=
  ∀ sn : Snapshot,
    let s1 : Nat := sn.srcBase.toNat + (sn.srcH.toNat - 1) * sn.srcStride.toNat + 4 * sn.srcW.toNat
    let d1 : Nat := sn.dstBase.toNat + 4 * sn.dstW.toNat * sn.dstH.toNat
    let c1 : Prop := sn.fmt.toNat = 3
    let c2 : Prop := sn.dstW.toNat = 0 ∨ sn.dstH.toNat = 0
    let c3 : Prop := sn.srcW.toNat = 0 ∨ sn.srcH.toNat = 0
    let c4 : Prop := sn.srcStride.toNat < 4 * sn.srcW.toNat
    let c5 : Prop := sn.srcBase.toNat % 4 ≠ 0 ∨ sn.srcStride.toNat % 4 ≠ 0 ∨ sn.dstBase.toNat % 4 ≠ 0
    let c6 : Prop := s1 > 2 ^ 32 ∨ d1 > 2 ^ 32
    let c7 : Prop := sn.srcBase.toNat < d1 ∧ sn.dstBase.toNat < s1
    (validate sn = .rejected .format ↔ c1) ∧
    (validate sn = .empty ↔ ¬c1 ∧ c2) ∧
    (validate sn = .rejected .emptySrc ↔ ¬c1 ∧ ¬c2 ∧ c3) ∧
    (validate sn = .rejected .stride ↔ ¬c1 ∧ ¬c2 ∧ ¬c3 ∧ c4) ∧
    (validate sn = .rejected .align ↔ ¬c1 ∧ ¬c2 ∧ ¬c3 ∧ ¬c4 ∧ c5) ∧
    (validate sn = .rejected .range ↔ ¬c1 ∧ ¬c2 ∧ ¬c3 ∧ ¬c4 ∧ ¬c5 ∧ c6) ∧
    (validate sn = .rejected .overlap ↔ ¬c1 ∧ ¬c2 ∧ ¬c3 ∧ ¬c4 ∧ ¬c5 ∧ ¬c6 ∧ c7) ∧
    (validate sn = .accepted ↔ ¬c1 ∧ ¬c2 ∧ ¬c3 ∧ ¬c4 ∧ ¬c5 ∧ ¬c6 ∧ ¬c7)

/-- R36, R96: the snapshot's fields are the registers' fields, zero-extended. -/
def Obligations.SnapshotOfRegisters : Prop :=
  ∀ r : Regs,
    (takeSnapshot r).srcBase = r.srcBase ∧ (takeSnapshot r).srcStride = r.srcStride ∧
    (takeSnapshot r).dstBase = r.dstBase ∧ (takeSnapshot r).fmt = r.fmt ∧
    r.srcSize.toNat = (takeSnapshot r).srcW.toNat + 65536 * (takeSnapshot r).srcH.toNat ∧
    r.dstSize.toNat = (takeSnapshot r).dstW.toNat + 65536 * (takeSnapshot r).dstH.toNat

/-- R238: a `RESIZE` straight after reset completes at once as an empty operation, with
`STATUS = 0x00000002`, and touches no memory. -/
def Obligations.ResizeAfterResetIsEmpty : Prop :=
  ∃ t, exec .resize State.reset = .next t ∧ readReg t.regs .status = 0x00000002#32 ∧
    readReg t.regs .progress = 0 ∧ t.mem = State.reset.mem

/-! ## Status, error codes and interrupt (10_state.md, 60_exceptions.md) -/

/-- R201, R32: the error codes, and where the status word shows them; codes 9 to 15 are never shown. -/
def Obligations.ErrorCodes : Prop :=
  (ErrCode.none.code = 0 ∧ ErrCode.format.code = 1 ∧ ErrCode.emptySrc.code = 2 ∧
    ErrCode.stride.code = 3 ∧ ErrCode.align.code = 4 ∧ ErrCode.range.code = 5 ∧
    ErrCode.overlap.code = 6 ∧ ErrCode.bus.code = 7 ∧ ErrCode.illegalCmd.code = 8) ∧
  ∀ r : Regs, (statusWord r).extractLsb' 4 4 = r.err.code ∧ (statusWord r).extractLsb' 4 4 ≤ 8#4 ∧
    (statusWord r).getLsbD 3 = false ∧ (statusWord r).extractLsb' 8 24 = 0#24

/-- R40, R205: `IRQ` is the level `IRQ_EN AND DONE`, and a write of `CTRL` makes it so at once: enabling
raises it when `DONE = 1`, masking lowers it. -/
def Obligations.InterruptLevel : Prop :=
  ∀ (s : State) (w : Word), (irq s = true ↔ s.regs.irqEn = true ∧ s.regs.done = true) ∧
    ∃ t, exec (.mmioWr .ctrl w) s = .next t ∧
      (irq t = true ↔ w.getLsbD 0 = true ∧ s.regs.done = true)

/-- R29: only an accepted `RESIZE` sets `BUSY`; only the end of the operation in the engine's step, which
sets `DONE` with `ERR` BUS, or NONE after the last pixel, and reset clear it. (That the engine's step is its
turn among the inputs is the model's choice, log entry 2.) -/
def Obligations.BusyChanges : Prop :=
  ∀ s t : State, step s = .next t →
    (s.regs.busy = false → t.regs.busy = true →
      s.submits 1#32 ∧ validate (takeSnapshot s.regs) = .accepted) ∧
    (s.regs.busy = true → t.regs.busy = false →
      s.meetsReset ∨
      (s.engineActs ∧ t.regs.done = true ∧
        (t.regs.err = .bus ∨ (t.regs.err = .none ∧ t.regs.progress.toNat = pixelCount s.snap))))

/-- R30, R32: `DONE` rises only when the engine's step ends the running operation, a taken `RESIZE` is not
accepted, or an illegal word is written while idle; it falls only by an accepted `RESIZE`, a `CLEAR` while
idle, or reset. `ERR` changes only in those events, to their code where they set `DONE` and to 0 where they
clear it. (That the engine's step is its turn among the inputs is the model's choice, log entry 2.) -/
def Obligations.DoneAndErrChanges : Prop :=
  ∀ s t : State, step s = .next t →
    let operationEnds := s.engineActs ∧ s.regs.busy = true ∧ t.regs.busy = false
    let resizeEnds := s.regs.busy = false ∧ s.submits 1#32 ∧ validate (takeSnapshot s.regs) ≠ .accepted
    let illegal := s.regs.busy = false ∧ ∃ w, s.submits w ∧ w ≠ 0#32 ∧ w ≠ 1#32 ∧ w ≠ 2#32
    let clears := (s.regs.busy = false ∧ s.submits 1#32 ∧ validate (takeSnapshot s.regs) = .accepted) ∨
      (s.regs.busy = false ∧ s.submits 2#32) ∨ s.meetsReset
    (s.regs.done = false → t.regs.done = true → operationEnds ∨ resizeEnds ∨ illegal) ∧
    (s.regs.done = true → t.regs.done = false → clears) ∧
    (t.regs.err ≠ s.regs.err →
      (t.regs.done = true ∧
        ((operationEnds ∧ (t.regs.err = .none ∨ t.regs.err = .bus)) ∨
          (resizeEnds ∧ ((validate (takeSnapshot s.regs) = .empty ∧ t.regs.err = .none) ∨
            validate (takeSnapshot s.regs) = .rejected t.regs.err)) ∨
          (illegal ∧ t.regs.err = .illegalCmd))) ∨
      (t.regs.done = false ∧ t.regs.err = .none ∧ clears))

/-- R31: `IGN` rises only by a word other than 0 written to `CMD` while busy, and falls only by a `CLEAR`
while idle, or reset. -/
def Obligations.IgnChanges : Prop :=
  ∀ s t : State, step s = .next t →
    (s.regs.ign = false → t.regs.ign = true →
      s.regs.busy = true ∧ ∃ w, s.submits w ∧ w ≠ 0#32) ∧
    (s.regs.ign = true → t.regs.ign = false →
      (s.regs.busy = false ∧ s.submits 2#32) ∨ s.meetsReset)

/-- R34, R36, R22 to R28, R121: only a `RESIZE` taken while idle, a pixel the engine writes, and reset change
`PROGRESS`: to 0, by one, to 0. Only a taken `RESIZE` and reset change the snapshot. Only a write of that very
register, and reset, change `CTRL` and each configuration register. After a conflicting write the counted
pixel's bytes are unspecified (R246), free values by the model's choice (log entries 8 and 11); that the
engine's step is its turn among the inputs is the model's choice too (log entry 2). -/
def Obligations.ProgressSnapshotAndConfigurationChanges : Prop :=
  ∀ s t : State, step s = .next t →
    (t.regs.progress = s.regs.progress ∨
      (s.regs.busy = false ∧ s.submits 1#32 ∧ t.regs.progress = 0) ∨
      (s.engineActs ∧ s.regs.busy = true ∧ t.regs.progress = s.regs.progress + 1 ∧
        loadQuad t.mem (pixelAddr s.snap s.regs.progress.toNat) =
          bytesToWrite ((pixelBytes s.platform s.mem s.snap s.regs.progress.toNat).getD ⟨0, 0, 0, 0⟩) s) ∨
      (s.meetsReset ∧ t.regs.progress = 0)) ∧
    (t.snap = s.snap ∨ (s.regs.busy = false ∧ s.submits 1#32 ∧ t.snap = takeSnapshot s.regs) ∨
      s.meetsReset) ∧
    ((s.meetsReset ∧ t.regs = Regs.reset) ∨
      ((t.regs.irqEn = s.regs.irqEn ∨ ∃ w, s.writesReg .ctrl w ∧ t.regs.irqEn = w.getLsbD 0) ∧
        (t.regs.srcBase = s.regs.srcBase ∨ ∃ w, s.writesReg .srcBase w ∧ t.regs.srcBase = w) ∧
        (t.regs.srcStride = s.regs.srcStride ∨ ∃ w, s.writesReg .srcStride w ∧ t.regs.srcStride = w) ∧
        (t.regs.srcSize = s.regs.srcSize ∨ ∃ w, s.writesReg .srcSize w ∧ t.regs.srcSize = w) ∧
        (t.regs.dstBase = s.regs.dstBase ∨ ∃ w, s.writesReg .dstBase w ∧ t.regs.dstBase = w) ∧
        (t.regs.dstSize = s.regs.dstSize ∨ ∃ w, s.writesReg .dstSize w ∧ t.regs.dstSize = w) ∧
        (t.regs.fmt = s.regs.fmt ∨ ∃ w, s.writesReg .format w ∧ t.regs.fmt = w.extractLsb' 0 2)))

/-! ## Invariants and stops -/

/-- Every step keeps the invariant: memory in its canonical form, `ERR ≠ 0` only with `DONE` (R32), no
running operation `DONE` (R29, R30), the engine busy only with an accepted operation and a pixel left (R29,
R37), `PROGRESS` at most the pixel count (R37), reset values while reset is held (R235). The canonical form
of memory is the model's own (log entry 7). -/
def Obligations.StepKeepsInvariant : Prop :=
  ∀ s t : State, s.Inv → step s = .next t → t.Inv

/-- The invariant holds right after reset. -/
def Obligations.ResetMeetsInvariant : Prop := State.reset.Inv

/-- In a state that meets the invariant a step stops only where the spec stops it: at a transaction or another
step of the host during reset (R235, S17), and at a busy engine's `PIXEL_STEP`, its turn among the inputs, on
memory that is not ordinary (R245). The stops' names and the turn are the model's choice (log entries 14, 15 and 2). -/
def Obligations.StopsOnlyWhereSpecStops : Prop :=
  ∀ s : State, s.Inv →
    (∀ f, step s = .fault f → s.inReset = true ∧
      ((f = .transactionDuringReset ∧ ∃ e rest, s.inputs = .port e :: rest) ∨
        (f = .hostStepDuringReset ∧ s.hostActsOffPort))) ∧
    (∀ r, step s = .refused r →
      r = .nonOrdinaryMemory ∧ s.engineActs ∧ s.regs.busy = true ∧
        ordinaryExtents s.platform s.snap = false)

/-- R5: a machine's platform never changes (it is a field of State by the model's choice, log entry 6). -/
def Obligations.PlatformIsFixed : Prop :=
  ∀ s t : State, step s = .next t → t.platform = s.platform

/-! ## Memory (20_memory.md) -/

/-- R62: `MemRead` answers the four bytes in address order when all four are backed, else `BusError`. -/
def Obligations.MemReadAnswers : Prop :=
  ∀ (p : Platform) (m : Memory) (a : Nat),
    memRead p m a =
      if backed p a = true ∧ backed p (a + 1) = true ∧ backed p (a + 2) = true ∧ backed p (a + 3) = true
      then some ⟨m.read a, m.read (a + 1), m.read (a + 2), m.read (a + 3)⟩ else none

/-- R69: byte lane `k` of the bus word carries the byte at `addr + k`, in both directions. -/
def Obligations.ByteLanes : Prop :=
  ∀ q : Quad, (toLanes q).toNat =
      q.b0.toNat + 2 ^ 8 * q.b1.toNat + 2 ^ 16 * q.b2.toNat + 2 ^ 24 * q.b3.toNat ∧
    ∀ (m : Memory) (a : Nat), a + 4 ≤ 2 ^ 32 → loadQuad (storeLanes m a (toLanes q)) a = q

/-- R64, R66, R70, R164: under an accepted snapshot every neighbour of every destination pixel is an
aligned pixel inside the source image and the source extent, below 2^32. -/
def Obligations.NeighboursInsideSource : Prop :=
  ∀ (sn : Snapshot) (i ex ey : Nat), validate sn = .accepted → i < pixelCount sn →
    (ex = 0 ∨ ex = (axisX sn i).step) → (ey = 0 ∨ ey = (axisY sn i).step) →
    let px := (axisX sn i).base + ex
    let py := (axisY sn i).base + ey
    px < sn.srcW.toNat ∧ py < sn.srcH.toNat ∧ srcAddr sn px py % 4 = 0 ∧
    sn.srcBase.toNat ≤ srcAddr sn px py ∧ srcAddr sn px py + 4 ≤ srcEnd sn ∧ srcEnd sn ≤ 2 ^ 32

/-- R65, R67, R70: destination pixels are packed, aligned, inside the destination extent and apart from one
another and from the source extent. -/
def Obligations.DestinationPixelsPacked : Prop :=
  ∀ (sn : Snapshot) (x y : Nat), validate sn = .accepted → x < sn.dstW.toNat → y < sn.dstH.toNat →
    pixelAddr sn (y * sn.dstW.toNat + x) = dstAddr sn x y ∧ dstAddr sn x y % 4 = 0 ∧
    dstStart sn ≤ dstAddr sn x y ∧ dstAddr sn x y + 4 ≤ dstEnd sn ∧ dstEnd sn ≤ 2 ^ 32 ∧
    (dstAddr sn x y + 4 ≤ srcStart sn ∨ srcEnd sn ≤ dstAddr sn x y) ∧
    ∀ x' y', x' < sn.dstW.toNat → y' < sn.dstH.toNat → (x', y') ≠ (x, y) →
      dstAddr sn x' y' + 4 ≤ dstAddr sn x y ∨ dstAddr sn x y + 4 ≤ dstAddr sn x' y'

/-! ## Datapath (42_resize_datapath.md) -/

/-- R160 to R162: base index plus fraction is the source's real-valued coordinate
`((i + 0.5)/newW)*srcW - 0.5`, or 0 where that is negative. -/
def Obligations.AxisIsSourceFormula : Prop :=
  ∀ i nNew nSrc : Nat, 0 < nNew →
    ((axis i nNew nSrc).base : ℚ) + ((axis i nNew nSrc).frac : ℚ) / ((axis i nNew nSrc).denom : ℚ) =
      max 0 ((((i : ℚ) + 1 / 2) / (nNew : ℚ)) * (nSrc : ℚ) - 1 / 2)

/-- R162, R163: the base index and its neighbour stay inside the source, the fraction below its denominator
`2*n_new`, and the neighbour step is 1 except at the last index, where it is 0. -/
def Obligations.AxisStaysInside : Prop :=
  ∀ i nNew nSrc : Nat, i < nNew → 0 < nSrc →
    (axis i nNew nSrc).base ≤ nSrc - 1 ∧
    (axis i nNew nSrc).base + (axis i nNew nSrc).step ≤ nSrc - 1 ∧
    (axis i nNew nSrc).denom = 2 * nNew ∧ (axis i nNew nSrc).frac < (axis i nNew nSrc).denom ∧
    ((axis i nNew nSrc).base < nSrc - 1 → (axis i nNew nSrc).step = 1) ∧
    ((axis i nNew nSrc).base = nSrc - 1 → (axis i nNew nSrc).step = 0)

/-- R45: a pixel's four bytes stand at its address and the three above it; the three channel orders; and
`Encode` undoing `Decode`. -/
def Obligations.ChannelOrders : Prop :=
  (∀ (m : Memory) (a : Nat), loadQuad m a = ⟨m.read a, m.read (a + 1), m.read (a + 2), m.read (a + 3)⟩) ∧
  (∀ q : Quad, decodePixel .rgba32 q = { r := q.b0, g := q.b1, b := q.b2, a := q.b3 } ∧
    decodePixel .argb32 q = { a := q.b0, r := q.b1, g := q.b2, b := q.b3 } ∧
    decodePixel .bgra32 q = { b := q.b0, g := q.b1, r := q.b2, a := q.b3 }) ∧
  (∀ (f : Format) (q : Quad), encodePixel f (decodePixel f q) = q) ∧
  (∀ (f : Format) (p : Pixel), decodePixel f (encodePixel f p) = p) ∧
  Format.ofCode 0#2 = some .rgba32 ∧ Format.ofCode 1#2 = some .argb32 ∧
  Format.ofCode 2#2 = some .bgra32 ∧ Format.ofCode 3#2 = none

/-- R167, R169, R171: the weights add up to `Du*Dv`, so a blended channel is the exact quotient rounded
down, never above the largest nor below the smallest of the four; its sum is below 2^42 for dimensions the
registers can hold. -/
def Obligations.BlendIsExactMean : Prop :=
  ∀ (ax ay : Axis) (c00 c10 c01 c11 : Byte), 0 < ax.denom → 0 < ay.denom → ax.frac < ax.denom →
    ay.frac < ay.denom →
    let w00 := (ax.denom - ax.frac) * (ay.denom - ay.frac)
    let w10 := ax.frac * (ay.denom - ay.frac)
    let w01 := (ax.denom - ax.frac) * ay.frac
    let w11 := ax.frac * ay.frac
    let sum := c00.toNat * w00 + c10.toNat * w10 + c01.toNat * w01 + c11.toNat * w11
    w00 + w10 + w01 + w11 = ax.denom * ay.denom ∧
    (blendChannel ax ay c00 c10 c01 c11).toNat = sum / (ax.denom * ay.denom) ∧
    min (min c00.toNat c10.toNat) (min c01.toNat c11.toNat) ≤
      (blendChannel ax ay c00 c10 c01 c11).toNat ∧
    (blendChannel ax ay c00 c10 c01 c11).toNat ≤
      max (max c00.toNat c10.toNat) (max c01.toNat c11.toNat) ∧
    (ax.denom ≤ 131070 → ay.denom ≤ 131070 → sum < 2 ^ 42)

/-- R168: alpha is 0 when one of the three non-base neighbours has alpha 0, whatever the weights, else the
base neighbour's alpha; the colours are blended all the same. -/
def Obligations.AlphaRule : Prop :=
  ∀ (ax ay : Axis) (n : Neighbours),
    ((n.p10.a = 0 ∨ n.p01.a = 0 ∨ n.p11.a = 0) → (blend ax ay n).a = 0) ∧
    (n.p10.a ≠ 0 → n.p01.a ≠ 0 → n.p11.a ≠ 0 → (blend ax ay n).a = n.p00.a) ∧
    (blend ax ay n).r = blendChannel ax ay n.p00.r n.p10.r n.p01.r n.p11.r ∧
    (blend ax ay n).g = blendChannel ax ay n.p00.g n.p10.g n.p01.g n.p11.g ∧
    (blend ax ay n).b = blendChannel ax ay n.p00.b n.p10.b n.p01.b n.p11.b

/-- R165, R166, R170: the bytes of a destination pixel are the blend of its four neighbours, decoded and
encoded by the format, and come to be exactly when all four are backed. -/
def Obligations.PixelBytesAreTheBlend : Prop :=
  ∀ (p : Platform) (m : Memory) (sn : Snapshot) (i : Nat) (f : Format), Format.ofCode sn.fmt = some f →
    let ax := axis (i % sn.dstW.toNat) sn.dstW.toNat sn.srcW.toNat
    let ay := axis (i / sn.dstW.toNat) sn.dstH.toNat sn.srcH.toNat
    let a00 := srcAddr sn ax.base ay.base
    let a10 := srcAddr sn (ax.base + ax.step) ay.base
    let a01 := srcAddr sn ax.base (ay.base + ay.step)
    let a11 := srcAddr sn (ax.base + ax.step) (ay.base + ay.step)
    pixelBytes p m sn i =
      if backedQuad p a00 = true ∧ backedQuad p a10 = true ∧ backedQuad p a01 = true ∧
        backedQuad p a11 = true
      then some (encodePixel f (blend ax ay ⟨decodePixel f (loadQuad m a00),
        decodePixel f (loadQuad m a10), decodePixel f (loadQuad m a01), decodePixel f (loadQuad m a11)⟩))
      else none

/-- R172: with equal sizes every destination pixel is its source pixel, but for an alpha of 0 where the
right, lower or diagonal neighbour (collapsed at the edges) has alpha 0. -/
def Obligations.IdentityLaw : Prop :=
  ∀ (p : Platform) (m : Memory) (sn : Snapshot) (i : Nat) (f : Format), validate sn = .accepted →
    sn.srcW = sn.dstW → sn.srcH = sn.dstH → i < pixelCount sn → Format.ofCode sn.fmt = some f →
    (∀ a, srcStart sn ≤ a → a < srcEnd sn → backed p a = true) →
    let x := i % sn.dstW.toNat
    let y := i / sn.dstW.toNat
    let x1 := if x + 1 < sn.srcW.toNat then x + 1 else x
    let y1 := if y + 1 < sn.srcH.toNat then y + 1 else y
    let px := fun cx cy => decodePixel f (loadQuad m (srcAddr sn cx cy))
    pixelBytes p m sn i = some (encodePixel f { px x y with
      a := if (px x1 y).a = 0 ∨ (px x y1).a = 0 ∨ (px x1 y1).a = 0 then 0 else (px x y).a })

/-- R173: a one-pixel source gives every destination pixel equal to it. -/
def Obligations.OnePixelSource : Prop :=
  ∀ (p : Platform) (m : Memory) (sn : Snapshot) (i : Nat), validate sn = .accepted →
    sn.srcW = 1 → sn.srcH = 1 → i < pixelCount sn → backedQuad p (srcStart sn) = true →
    pixelBytes p m sn i = some (loadQuad m (srcStart sn))

/-- R173: scaling down by two along both axes, each colour is the floor of the mean of the 2×2 block at
`(2x, 2y)`. -/
def Obligations.HalvingIsBlockMean : Prop :=
  ∀ (sn : Snapshot) (i : Nat) (c00 c10 c01 c11 : Byte), 0 < sn.dstW.toNat →
    sn.srcW.toNat = 2 * sn.dstW.toNat → sn.srcH.toNat = 2 * sn.dstH.toNat → i < pixelCount sn →
    (axisX sn i).base = 2 * (i % sn.dstW.toNat) ∧ (axisX sn i).step = 1 ∧
    (axisY sn i).base = 2 * (i / sn.dstW.toNat) ∧ (axisY sn i).step = 1 ∧
    (blendChannel (axisX sn i) (axisY sn i) c00 c10 c01 c11).toNat =
      (c00.toNat + c10.toNat + c01.toNat + c11.toNat) / 4

/-- R173: the result does not depend on the padding: two memories that agree on the bytes of the source's
pixels give the same destination bytes. -/
def Obligations.PaddingDoesNotMatter : Prop :=
  ∀ (p : Platform) (m m' : Memory) (sn : Snapshot) (i : Nat), validate sn = .accepted →
    i < pixelCount sn →
    (∀ px py k, px < sn.srcW.toNat → py < sn.srcH.toNat → k < 4 →
      m.read (srcAddr sn px py + k) = m'.read (srcAddr sn px py + k)) →
    pixelBytes p m sn i = pixelBytes p m' sn i

/-! ## The engine's step (42_resize_datapath.md R170) -/

/-- R170: a `PIXEL_STEP` whose reads and write are answered writes the blend at the pixel's address, no
other byte, and advances `PROGRESS` by one; after the last pixel it ends the operation with success. After a
conflicting write (R246) the bytes it writes are free values instead (log entries 8 and 11). No other register
changes; the pixel's old bytes go on the record of what the host has not been shown (the model's form, log
entry 12). -/
def Obligations.PixelStepWritesPixel : Prop :=
  ∀ (s : State) (q : Quad), validOperation s = true → ordinaryExtents s.platform s.snap = true →
    pixelBytes s.platform s.mem s.snap s.regs.progress.toNat = some q →
    backedQuad s.platform (pixelAddr s.snap s.regs.progress.toNat) = true →
    ∃ t, pixelStep s = .next t ∧
      loadQuad t.mem (pixelAddr s.snap s.regs.progress.toNat) =
        (if s.conflict then freeQuad s.freeCount else q) ∧
      (∀ a, (a < pixelAddr s.snap s.regs.progress.toNat ∨
        pixelAddr s.snap s.regs.progress.toNat + 4 ≤ a) → t.mem.read a = s.mem.read a) ∧
      t.regs.progress.toNat = s.regs.progress.toNat + 1 ∧
      (s.regs.progress.toNat + 1 < pixelCount s.snap →
        t.regs = { s.regs with progress := t.regs.progress }) ∧
      (s.regs.progress.toNat + 1 = pixelCount s.snap →
        t.regs = { s.regs with progress := t.regs.progress, busy := false, done := true, err := .none }) ∧
      t.stale = ⟨pixelAddr s.snap s.regs.progress.toNat,
        loadQuad s.mem (pixelAddr s.snap s.regs.progress.toNat)⟩ :: s.stale ∧
      t.freeCount = s.freeCount + (if s.conflict then 4 else 0) ∧
      t.snap = s.snap ∧ t.conflict = s.conflict ∧ t.response = s.response ∧ t.hostData = s.hostData ∧
      t.inReset = s.inReset ∧ t.inputs = s.inputs ∧ t.platform = s.platform

/-- R170, R201, R206: a read that answers `BusError` ends the operation with BUS and changes nothing but
`STATUS`; a failed write besides leaves its pixel's four bytes unspecified (R63: free values, log entries 8 and 9)
and no other byte changed. -/
def Obligations.BusErrorStopsOperation : Prop :=
  ∀ s : State, validOperation s = true → ordinaryExtents s.platform s.snap = true →
    (pixelBytes s.platform s.mem s.snap s.regs.progress.toNat = none →
      pixelStep s = .next { s with regs := { s.regs with busy := false, done := true, err := .bus } }) ∧
    (∀ q, pixelBytes s.platform s.mem s.snap s.regs.progress.toNat = some q →
      backedQuad s.platform (pixelAddr s.snap s.regs.progress.toNat) = false →
      ∃ t, pixelStep s = .next t ∧
        t.regs = { s.regs with busy := false, done := true, err := .bus } ∧
        (∀ a, (a < pixelAddr s.snap s.regs.progress.toNat ∨
          pixelAddr s.snap s.regs.progress.toNat + 4 ≤ a) → t.mem.read a = s.mem.read a) ∧
        (∀ k, k < 4 → t.mem.read (pixelAddr s.snap s.regs.progress.toNat + k) =
          Config.freeByte (s.freeCount + k)) ∧
        t.snap = s.snap ∧ t.conflict = s.conflict ∧ t.response = s.response ∧
        t.hostData = s.hostData ∧ t.stale = s.stale ∧ t.inReset = s.inReset ∧ t.inputs = s.inputs ∧
        t.platform = s.platform)

/-- R245, S6: a `PIXEL_STEP` of an operation whose extents hold a byte that is not ordinary gets no
meaning. That the refusal stands at the step and not at `RESIZE` is the model's choice (log entry 15). -/
def Obligations.NonOrdinaryOperationRefused : Prop :=
  ∀ (s : State) (a : Nat) (r : AddrRange), s.regs.busy = true → validOperation s = true →
    r ∈ s.platform.unordinary → r.lo ≤ a → a < r.hi →
    (inSource s.snap a = true ∨ inDestination s.snap a = true) →
    engineTurn s = .refused .nonOrdinaryMemory

/-- R36, R241: what the engine does depends on the snapshot alone: configuration registers written during
the operation, and `CTRL`, do not affect it. Where the step writes unspecified bytes, after a failed write or a
conflicting one, the two memories are the same only because both steps draw the same free values, which is
the model's choice (log entry 8). -/
def Obligations.ConfigurationWritesDoNotReachOperation : Prop :=
  ∀ (s : State) (r : Regs), r.busy = s.regs.busy → r.done = s.regs.done → r.ign = s.regs.ign →
    r.err = s.regs.err → r.progress = s.regs.progress →
    match engineTurn s, engineTurn { s with regs := r } with
    | .next t, .next t' =>
      t'.mem = t.mem ∧ t'.snap = t.snap ∧ t'.stale = t.stale ∧ t'.freeCount = t.freeCount ∧
      t'.conflict = t.conflict ∧
      t'.regs = { r with
        busy := t.regs.busy, done := t.regs.done, ign := t.regs.ign, err := t.regs.err
        progress := t.regs.progress }
    | .fault f, .fault f' => f' = f
    | .refused f, .refused f' => f' = f
    | _, _ => False

/-- R67, R170: a step of the whole machine changes no byte outside the destination extent of the running
operation, unless it is an agent's own memory write. -/
def Obligations.MemoryChangesOnlyInDestination : Prop :=
  ∀ (s t : State) (a : Nat), s.Inv → step s = .next t →
    (∀ agent i lanes q rest, s.inputs ≠ .memWrite agent i lanes q :: rest) →
    (s.regs.busy = false ∨ inDestination s.snap a = false) → t.mem.read a = s.mem.read a

/-- R170, R172 to R173, R201: an operation that no input disturbs, in ordinary and backed memory, runs to
its end in exactly `DST_W*DST_H` steps, with `ERR = 0` and `PROGRESS = DST_W*DST_H`; every destination
pixel then holds the blend of the source as it stood at the start, and no byte outside the destination has
changed. (With no input left every step is the engine's: the model's choice, log entry 2.) -/
def Obligations.OperationComputesResize : Prop :=
  ∀ s : State, s.Inv → s.regs.busy = true → s.regs.progress = 0 → s.conflict = false → s.inputs = [] →
    ordinaryExtents s.platform s.snap = true →
    (∀ a, (inSource s.snap a = true ∨ inDestination s.snap a = true) → backed s.platform a = true) →
    ∃ t, runsTo s (pixelCount s.snap) t ∧ t.regs.busy = false ∧ t.regs.done = true ∧
      t.regs.err = .none ∧ t.regs.progress.toNat = pixelCount s.snap ∧
      (∀ i, i < pixelCount s.snap →
        some (loadQuad t.mem (pixelAddr s.snap i)) = pixelBytes s.platform s.mem s.snap i) ∧
      ∀ a, inDestination s.snap a = false → t.mem.read a = s.mem.read a

/-- R250, R170: an accepted operation that no input disturbs ends with `DONE = 1` after at most as many steps as
it has pixels left, exactly that many when `ERR = 0`, and otherwise with `ERR = BUS`. (R250 says "earlier" for
the second; by R170 a `BusError` at the last pixel ends it at the last step. With no input left every step is
the engine's: the model's choice, log entry 2.) -/
def Obligations.OperationEnds : Prop :=
  ∀ s : State, s.Inv → s.regs.busy = true → s.inputs = [] →
    ordinaryExtents s.platform s.snap = true →
    ∃ n t, runsTo s n t ∧ n ≤ pixelCount s.snap - s.regs.progress.toNat ∧ t.regs.busy = false ∧
      t.regs.done = true ∧
      ((t.regs.err = .none ∧ n = pixelCount s.snap - s.regs.progress.toNat ∧
          t.regs.progress.toNat = pixelCount s.snap) ∨
        (t.regs.err = .bus ∧ t.regs.progress.toNat + 1 = s.regs.progress.toNat + n))

/-! ## The outside world (20_memory.md R75; 70_reset_and_hazards.md) -/

/-- R246, R71: an aligned write of one or more of four bytes, one of them in an extent of the running
operation. A written byte that is not a destination byte still to be written lands as written where it is
backed, and becomes a free value where it is not; the write leaves every register and every other byte that is
not one alone; each destination byte still to be written becomes a free value; and the engine's next step does
to the registers what it would have done without the conflict, and writes free values, the conflict staying on
record for the steps after it. The model's choices: the form of the unspecified bytes (log entries 8 and 11)
and of the access (log entry 23); that a write of a byte that is not backed makes that byte a free value and
changes no other byte (log entry 17); that a byte which is not ordinary is stored like any other (log entry
25). The host's own write comes while reset is not held (R235); the statement covers another agent's at any
time (log entry 14). -/
def Obligations.ConflictingWrite : Prop :=
  ∀ (s : State) (agent : BusAgent) (index : BitVec 30) (lanes : BitVec 4) (q : Quad),
    (agent = .host → s.inReset = false) → s.regs.busy = true →
    (∃ k < 4, lanes.getLsbD k = true ∧
      (inSource s.snap (4 * index.toNat + k) = true ∨ inDestination s.snap (4 * index.toNat + k) = true)) →
    let unwritten := fun a => dstStart s.snap + 4 * s.regs.progress.toNat ≤ a ∧ a < dstEnd s.snap
    let t := agentWrite index lanes q s
    takeInput (.memWrite agent index lanes q) s = .next t ∧ t.regs = s.regs ∧ t.snap = s.snap ∧
    t.conflict = true ∧
    (∀ k < 4, lanes.getLsbD k = true → backed s.platform (4 * index.toNat + k) = true →
      ¬unwritten (4 * index.toNat + k) → t.mem.read (4 * index.toNat + k) = getByte q k) ∧
    (∀ k < 4, lanes.getLsbD k = true → backed s.platform (4 * index.toNat + k) = false →
      ¬unwritten (4 * index.toNat + k) →
      ∃ n, s.freeCount ≤ n ∧ t.mem.read (4 * index.toNat + k) = Config.freeByte n) ∧
    (∀ a, (∀ k < 4, lanes.getLsbD k = true → a ≠ 4 * index.toNat + k) → ¬unwritten a →
      t.mem.read a = s.mem.read a) ∧
    (∃ n, s.freeCount ≤ n ∧ ∀ a, unwritten a → a < 2 ^ 32 → t.mem.read a =
      Config.freeByte (n + (a - (dstStart s.snap + 4 * s.regs.progress.toNat)))) ∧
    ∀ u', pixelStep s = .next u' → ∃ u, pixelStep t = .next u ∧ u.regs = u'.regs ∧ u.conflict = true ∧
      (u.regs.progress ≠ s.regs.progress →
        loadQuad u.mem (pixelAddr s.snap s.regs.progress.toNat) = freeQuad t.freeCount)

/-- R246 by contrast, R71: an aligned write of some of four bytes, all of them backed, while the engine is
idle, or all outside both extents, changes those bytes and no other, together in one step, and nothing of the
block's state; the host's own comes while reset is not held (R235). The model's choices: that bytes which are
not ordinary are stored like any other (log entry 25), the form of the access (log entry 23), and that another
agent's write is taken during reset too (log entry 14). -/
def Obligations.HarmlessWrite : Prop :=
  ∀ (s : State) (agent : BusAgent) (index : BitVec 30) (lanes : BitVec 4) (q : Quad),
    (agent = .host → s.inReset = false) →
    (∀ k < 4, lanes.getLsbD k = true → backed s.platform (4 * index.toNat + k) = true) →
    (s.regs.busy = false ∨ ∀ k < 4, lanes.getLsbD k = true →
      inSource s.snap (4 * index.toNat + k) = false ∧ inDestination s.snap (4 * index.toNat + k) = false) →
    let t := agentWrite index lanes q s
    takeInput (.memWrite agent index lanes q) s = .next t ∧
    (∀ k < 4, lanes.getLsbD k = true → t.mem.read (4 * index.toNat + k) = getByte q k) ∧
    (∀ a, (∀ k < 4, lanes.getLsbD k = true → a ≠ 4 * index.toNat + k) → t.mem.read a = s.mem.read a) ∧
    t.regs = s.regs ∧ t.snap = s.snap ∧ t.conflict = s.conflict ∧ t.freeCount = s.freeCount

/-- R75 items 3 and 4: once the host has read `PROGRESS`, has read `STATUS` with `DONE = 1` reporting an
operation, or has taken the interrupt of such a report, a read of any pixel the operation has written
returns what memory holds (the model's form, log entries 12 and 13). Reset is not held: while it is, the host
takes no step (R235). -/
def Obligations.ShownPixelsReadAsWritten : Prop :=
  ∀ (s t : State) (i : BitVec 30) (j : Nat), s.inReset = false →
    ((exec (.mmioRd .progress) s = .next t) ∨
      (exec (.mmioRd .status) s = .next t ∧ reportsOperation s.regs = true) ∨
      (takeInput .irqTaken s = .next t ∧ irq s = true ∧ reportsOperation s.regs = true)) →
    j < s.regs.progress.toNat → 4 * i.toNat = pixelAddr s.snap j →
    backedQuad s.platform (4 * i.toNat) = true →
    t.mem = s.mem ∧ ∃ u, takeInput (.memRead i) t = .next u ∧
      u.hostData = some (loadQuad t.mem (4 * i.toNat)) ∧ u.mem = t.mem

/-- R71, R75, R243: a host read of four aligned backed bytes returns them whole: as memory holds them, as
they were before an engine write the host has not been shown, or, for a pixel of the running operation that
the engine has still to write, as its result (after a conflicting write, free values: log entries 8 and 11);
one of four bytes that are not all backed returns nothing; and neither changes a register or memory (the
model's form, log entries 12, 17 and 25). Reset is not held: while it is, the host takes no step (R235). -/
def Obligations.HostReadsWholePixels : Prop :=
  ∀ (s : State) (i : BitVec 30), s.inReset = false → ∃ u, takeInput (.memRead i) s = .next u ∧
    (backedQuad s.platform (4 * i.toNat) = true → ∃ q, u.hostData = some q ∧
      (q = loadQuad s.mem (4 * i.toNat) ∨ (∃ v ∈ s.stale, v.addr = 4 * i.toNat ∧ q = v.old) ∨
        ∃ j r, s.regs.busy = true ∧ s.regs.progress.toNat ≤ j ∧ j < pixelCount s.snap ∧
          4 * i.toNat = pixelAddr s.snap j ∧ pixelBytes s.platform s.mem s.snap j = some r ∧
          q = if s.conflict then freeQuad s.freeCount else r)) ∧
    (backedQuad s.platform (4 * i.toNat) = false → u.hostData = none) ∧
    u.regs = s.regs ∧ u.mem = s.mem ∧ u.snap = s.snap ∧ u.stale = s.stale ∧ u.conflict = s.conflict ∧
    u.response = s.response

/-- R75 item 3: a pixel the host has been shown stays shown until the engine writes it again (the model's
form, log entry 12). -/
def Obligations.ShownPixelsStayShown : Prop :=
  ∀ (s t : State) (a : Nat), step s = .next t → (∀ v ∈ s.stale, v.addr ≠ a) →
    (∀ v ∈ t.stale, v.addr ≠ a) ∨
    (s.regs.busy = true ∧ a = pixelAddr s.snap s.regs.progress.toNat ∧
      t.regs.progress = s.regs.progress + 1)

/-- R235, R20, R238: asserting reset gives every register its reset value, whatever was going on, so that
`IRQ` is low and every register reads 0 but `ID`; releasing it changes nothing else, so that what held while
it was held holds after. -/
def Obligations.ResetRegisters : Prop :=
  (∀ (s : State) (rest : List Input), s.inputs = .resetAssert :: rest →
    ∃ t, step s = .next t ∧ t.inReset = true ∧ t.inputs = rest ∧ irq t = false ∧
      ∀ reg : Reg, readReg t.regs reg = if reg = .id then 0x42524531#32 else 0) ∧
  ∀ (s : State) (rest : List Input), s.inputs = .resetRelease :: rest →
    step s = .next { s with inputs := rest, inReset := false }

/-- R236, R237: reset changes no byte of memory but, during an operation, those of its destination extent,
which become unspecified (free values, log entries 8 and 10). -/
def Obligations.ResetMemory : Prop :=
  ∀ (s : State) (rest : List Input), s.inputs = .resetAssert :: rest →
    ∃ t, step s = .next t ∧
      (s.regs.busy = false → t.mem = s.mem) ∧
      (∀ a, inDestination s.snap a = false → t.mem.read a = s.mem.read a) ∧
      (s.regs.busy = true → ∀ a, inDestination s.snap a = true → a < 2 ^ 32 →
        t.mem.read a = Config.freeByte (s.freeCount + (a - dstStart s.snap)))

/-- R20, R235, R238: right after reset every register reads 0 but `ID`, `IRQ` is low, and the machine with
no input stays as it is (log entry 2). -/
def Obligations.StateAfterReset : Prop :=
  (∀ reg : Reg, ∃ t, exec (.mmioRd reg) State.reset = .next t ∧
    t.response = .okay (some (if reg = .id then 0x42524531#32 else 0))) ∧
  irq State.reset = false ∧ State.reset.inReset = false ∧ step State.reset = .next State.reset
end

