-- ==== Sys2Proof/Laws/State.lean ====
section
/-! SUPPORT. One lemma per field of State per shared update, each true by rfl. -/

namespace Sys2Proof.Machine

variable (s : State)

/-! ## endOperation: Ending an operation changes only `STATUS` (60_exceptions.md R200). -/

@[simp] theorem endOperation_platform (code : ErrCode) : (endOperation code s).platform = s.platform := rfl
@[simp] theorem endOperation_regs (code : ErrCode) :
    (endOperation code s).regs = { s.regs with busy := false, done := true, err := code } := rfl
@[simp] theorem endOperation_snap (code : ErrCode) : (endOperation code s).snap = s.snap := rfl
@[simp] theorem endOperation_conflict (code : ErrCode) : (endOperation code s).conflict = s.conflict := rfl
@[simp] theorem endOperation_mem (code : ErrCode) : (endOperation code s).mem = s.mem := rfl
@[simp] theorem endOperation_stale (code : ErrCode) : (endOperation code s).stale = s.stale := rfl
@[simp] theorem endOperation_response (code : ErrCode) : (endOperation code s).response = s.response := rfl
@[simp] theorem endOperation_hostData (code : ErrCode) : (endOperation code s).hostData = s.hostData := rfl
@[simp] theorem endOperation_inReset (code : ErrCode) : (endOperation code s).inReset = s.inReset := rfl
@[simp] theorem endOperation_inputs (code : ErrCode) : (endOperation code s).inputs = s.inputs := rfl
@[simp] theorem endOperation_freeCount (code : ErrCode) :
    (endOperation code s).freeCount = s.freeCount := rfl

/-! ## acknowledge: Acknowledging changes only `STATUS` (41_commands.md R145). -/

@[simp] theorem acknowledge_platform : (acknowledge s).platform = s.platform := rfl
@[simp] theorem acknowledge_regs :
    (acknowledge s).regs = { s.regs with done := false, err := .none, ign := false } := rfl
@[simp] theorem acknowledge_snap : (acknowledge s).snap = s.snap := rfl
@[simp] theorem acknowledge_conflict : (acknowledge s).conflict = s.conflict := rfl
@[simp] theorem acknowledge_mem : (acknowledge s).mem = s.mem := rfl
@[simp] theorem acknowledge_stale : (acknowledge s).stale = s.stale := rfl
@[simp] theorem acknowledge_response : (acknowledge s).response = s.response := rfl
@[simp] theorem acknowledge_hostData : (acknowledge s).hostData = s.hostData := rfl
@[simp] theorem acknowledge_inReset : (acknowledge s).inReset = s.inReset := rfl
@[simp] theorem acknowledge_inputs : (acknowledge s).inputs = s.inputs := rfl
@[simp] theorem acknowledge_freeCount : (acknowledge s).freeCount = s.freeCount := rfl

/-! ## respond: Answering a transaction changes only the answer. -/

@[simp] theorem respond_platform (r : Response) : (respond r s).platform = s.platform := rfl
@[simp] theorem respond_regs (r : Response) : (respond r s).regs = s.regs := rfl
@[simp] theorem respond_snap (r : Response) : (respond r s).snap = s.snap := rfl
@[simp] theorem respond_conflict (r : Response) : (respond r s).conflict = s.conflict := rfl
@[simp] theorem respond_mem (r : Response) : (respond r s).mem = s.mem := rfl
@[simp] theorem respond_stale (r : Response) : (respond r s).stale = s.stale := rfl
@[simp] theorem respond_response (r : Response) : (respond r s).response = r := rfl
@[simp] theorem respond_hostData (r : Response) : (respond r s).hostData = s.hostData := rfl
@[simp] theorem respond_inReset (r : Response) : (respond r s).inReset = s.inReset := rfl
@[simp] theorem respond_inputs (r : Response) : (respond r s).inputs = s.inputs := rfl
@[simp] theorem respond_freeCount (r : Response) : (respond r s).freeCount = s.freeCount := rfl

/-! ## makeUnspecified: Unspecified bytes change only memory. -/

@[simp] theorem makeUnspecified_platform (base len : Nat) :
    (makeUnspecified base len s).platform = s.platform := rfl
@[simp] theorem makeUnspecified_regs (base len : Nat) : (makeUnspecified base len s).regs = s.regs := rfl
@[simp] theorem makeUnspecified_snap (base len : Nat) : (makeUnspecified base len s).snap = s.snap := rfl
@[simp] theorem makeUnspecified_conflict (base len : Nat) :
    (makeUnspecified base len s).conflict = s.conflict := rfl
@[simp] theorem makeUnspecified_mem (base len : Nat) :
    (makeUnspecified base len s).mem = fillFree s.mem base len s.freeCount := rfl
@[simp] theorem makeUnspecified_stale (base len : Nat) : (makeUnspecified base len s).stale = s.stale := rfl
@[simp] theorem makeUnspecified_response (base len : Nat) :
    (makeUnspecified base len s).response = s.response := rfl
@[simp] theorem makeUnspecified_hostData (base len : Nat) :
    (makeUnspecified base len s).hostData = s.hostData := rfl
@[simp] theorem makeUnspecified_inReset (base len : Nat) :
    (makeUnspecified base len s).inReset = s.inReset := rfl
@[simp] theorem makeUnspecified_inputs (base len : Nat) :
    (makeUnspecified base len s).inputs = s.inputs := rfl
@[simp] theorem makeUnspecified_freeCount (base len : Nat) :
    (makeUnspecified base len s).freeCount = s.freeCount + len := rfl

/-! ## showWritten: Showing the host the engine's writes changes only its view. -/

@[simp] theorem showWritten_platform : (showWritten s).platform = s.platform := rfl
@[simp] theorem showWritten_regs : (showWritten s).regs = s.regs := rfl
@[simp] theorem showWritten_snap : (showWritten s).snap = s.snap := rfl
@[simp] theorem showWritten_conflict : (showWritten s).conflict = s.conflict := rfl
@[simp] theorem showWritten_mem : (showWritten s).mem = s.mem := rfl
@[simp] theorem showWritten_stale :
    (showWritten s).stale = s.stale.filter fun v =>
      !(decide (s.snap.dstBase.toNat ≤ v.addr) &&
        decide (v.addr < s.snap.dstBase.toNat + 4 * s.regs.progress.toNat)) := rfl
@[simp] theorem showWritten_response : (showWritten s).response = s.response := rfl
@[simp] theorem showWritten_hostData : (showWritten s).hostData = s.hostData := rfl
@[simp] theorem showWritten_inReset : (showWritten s).inReset = s.inReset := rfl
@[simp] theorem showWritten_inputs : (showWritten s).inputs = s.inputs := rfl
@[simp] theorem showWritten_freeCount : (showWritten s).freeCount = s.freeCount := rfl

/-! ## takeResize: Taking a `RESIZE` (41_commands.md R143). -/

@[simp] theorem takeResize_platform : (takeResize s).platform = s.platform := rfl
@[simp] theorem takeResize_regs :
    (takeResize s).regs = { s.regs with progress := 0, done := false, err := .none } := rfl
@[simp] theorem takeResize_snap : (takeResize s).snap = takeSnapshot s.regs := rfl
@[simp] theorem takeResize_conflict : (takeResize s).conflict = false := rfl
@[simp] theorem takeResize_mem : (takeResize s).mem = s.mem := rfl
@[simp] theorem takeResize_stale : (takeResize s).stale = s.stale := rfl
@[simp] theorem takeResize_response : (takeResize s).response = s.response := rfl
@[simp] theorem takeResize_hostData : (takeResize s).hostData = s.hostData := rfl
@[simp] theorem takeResize_inReset : (takeResize s).inReset = s.inReset := rfl
@[simp] theorem takeResize_inputs : (takeResize s).inputs = s.inputs := rfl
@[simp] theorem takeResize_freeCount : (takeResize s).freeCount = s.freeCount := rfl

/-! ## storePixel: Storing a pixel changes memory and the host's view of it. -/

@[simp] theorem storePixel_platform (a : Nat) (q : Quad) : (storePixel a q s).platform = s.platform := rfl
@[simp] theorem storePixel_regs (a : Nat) (q : Quad) : (storePixel a q s).regs = s.regs := rfl
@[simp] theorem storePixel_snap (a : Nat) (q : Quad) : (storePixel a q s).snap = s.snap := rfl
@[simp] theorem storePixel_conflict (a : Nat) (q : Quad) : (storePixel a q s).conflict = s.conflict := rfl
@[simp] theorem storePixel_mem (a : Nat) (q : Quad) :
    (storePixel a q s).mem = storeLanes s.mem a (toLanes q) := rfl
@[simp] theorem storePixel_stale (a : Nat) (q : Quad) :
    (storePixel a q s).stale = ⟨a, loadQuad s.mem a⟩ :: s.stale := rfl
@[simp] theorem storePixel_response (a : Nat) (q : Quad) : (storePixel a q s).response = s.response := rfl
@[simp] theorem storePixel_hostData (a : Nat) (q : Quad) : (storePixel a q s).hostData = s.hostData := rfl
@[simp] theorem storePixel_inReset (a : Nat) (q : Quad) : (storePixel a q s).inReset = s.inReset := rfl
@[simp] theorem storePixel_inputs (a : Nat) (q : Quad) : (storePixel a q s).inputs = s.inputs := rfl
@[simp] theorem storePixel_freeCount (a : Nat) (q : Quad) :
    (storePixel a q s).freeCount = s.freeCount + bytesDrawn s := rfl

/-! ## stopBus: Stopping on a bus error changes only `STATUS` (42_resize_datapath.md R170). -/

@[simp] theorem stopBus_platform : (stopBus s).platform = s.platform := rfl
@[simp] theorem stopBus_regs :
    (stopBus s).regs = { s.regs with busy := false, done := true, err := .bus } := rfl
@[simp] theorem stopBus_snap : (stopBus s).snap = s.snap := rfl
@[simp] theorem stopBus_conflict : (stopBus s).conflict = s.conflict := rfl
@[simp] theorem stopBus_mem : (stopBus s).mem = s.mem := rfl
@[simp] theorem stopBus_stale : (stopBus s).stale = s.stale := rfl
@[simp] theorem stopBus_response : (stopBus s).response = s.response := rfl
@[simp] theorem stopBus_hostData : (stopBus s).hostData = s.hostData := rfl
@[simp] theorem stopBus_inReset : (stopBus s).inReset = s.inReset := rfl
@[simp] theorem stopBus_inputs : (stopBus s).inputs = s.inputs := rfl
@[simp] theorem stopBus_freeCount : (stopBus s).freeCount = s.freeCount := rfl

/-! ## spoilUnwritten: A conflict changes memory and marks the operation (70_reset_and_hazards.md R246). -/

@[simp] theorem spoilUnwritten_platform : (spoilUnwritten s).platform = s.platform := rfl
@[simp] theorem spoilUnwritten_regs : (spoilUnwritten s).regs = s.regs := rfl
@[simp] theorem spoilUnwritten_snap : (spoilUnwritten s).snap = s.snap := rfl
@[simp] theorem spoilUnwritten_conflict : (spoilUnwritten s).conflict = true := rfl
@[simp] theorem spoilUnwritten_mem :
    (spoilUnwritten s).mem = fillFree s.mem (dstStart s.snap + 4 * s.regs.progress.toNat)
      (4 * (pixelCount s.snap - s.regs.progress.toNat)) s.freeCount := rfl
@[simp] theorem spoilUnwritten_stale : (spoilUnwritten s).stale = s.stale := rfl
@[simp] theorem spoilUnwritten_response : (spoilUnwritten s).response = s.response := rfl
@[simp] theorem spoilUnwritten_hostData : (spoilUnwritten s).hostData = s.hostData := rfl
@[simp] theorem spoilUnwritten_inReset : (spoilUnwritten s).inReset = s.inReset := rfl
@[simp] theorem spoilUnwritten_inputs : (spoilUnwritten s).inputs = s.inputs := rfl
@[simp] theorem spoilUnwritten_freeCount :
    (spoilUnwritten s).freeCount = s.freeCount + 4 * (pixelCount s.snap - s.regs.progress.toNat) := rfl

/-! ## releaseReset: Releasing reset changes nothing else (70_reset_and_hazards.md R238). -/

@[simp] theorem releaseReset_platform : (releaseReset s).platform = s.platform := rfl
@[simp] theorem releaseReset_regs : (releaseReset s).regs = s.regs := rfl
@[simp] theorem releaseReset_snap : (releaseReset s).snap = s.snap := rfl
@[simp] theorem releaseReset_conflict : (releaseReset s).conflict = s.conflict := rfl
@[simp] theorem releaseReset_mem : (releaseReset s).mem = s.mem := rfl
@[simp] theorem releaseReset_stale : (releaseReset s).stale = s.stale := rfl
@[simp] theorem releaseReset_response : (releaseReset s).response = s.response := rfl
@[simp] theorem releaseReset_hostData : (releaseReset s).hostData = s.hostData := rfl
@[simp] theorem releaseReset_inReset : (releaseReset s).inReset = false := rfl
@[simp] theorem releaseReset_inputs : (releaseReset s).inputs = s.inputs := rfl
@[simp] theorem releaseReset_freeCount : (releaseReset s).freeCount = s.freeCount := rfl

end Sys2Proof.Machine
end

