-- ==== Sys2Proof/Laws/Frames.lean ====
section
/-! SUPPORT. The fields that each operation with cases leaves alone, whichever case it takes. -/

namespace Sys2Proof.Machine

variable (s : State)

/-! ## landWrite: An agent's byte changes memory and the host's view of it. -/

theorem landWrite_frame (a : Nat) (b : Byte) : landWrite a b s =
    { s with
      mem := (landWrite a b s).mem
      stale := (landWrite a b s).stale
      freeCount := (landWrite a b s).freeCount } := by
  unfold landWrite; split <;> rfl

@[simp] theorem landWrite_platform (a : Nat) (b : Byte) : (landWrite a b s).platform = s.platform :=
  (congrArg State.platform (landWrite_frame s a b) :)
@[simp] theorem landWrite_regs (a : Nat) (b : Byte) : (landWrite a b s).regs = s.regs :=
  (congrArg State.regs (landWrite_frame s a b) :)
@[simp] theorem landWrite_snap (a : Nat) (b : Byte) : (landWrite a b s).snap = s.snap :=
  (congrArg State.snap (landWrite_frame s a b) :)
@[simp] theorem landWrite_conflict (a : Nat) (b : Byte) : (landWrite a b s).conflict = s.conflict :=
  (congrArg State.conflict (landWrite_frame s a b) :)
@[simp] theorem landWrite_response (a : Nat) (b : Byte) : (landWrite a b s).response = s.response :=
  (congrArg State.response (landWrite_frame s a b) :)
@[simp] theorem landWrite_hostData (a : Nat) (b : Byte) : (landWrite a b s).hostData = s.hostData :=
  (congrArg State.hostData (landWrite_frame s a b) :)
@[simp] theorem landWrite_inReset (a : Nat) (b : Byte) : (landWrite a b s).inReset = s.inReset :=
  (congrArg State.inReset (landWrite_frame s a b) :)
@[simp] theorem landWrite_inputs (a : Nat) (b : Byte) : (landWrite a b s).inputs = s.inputs :=
  (congrArg State.inputs (landWrite_frame s a b) :)

/-! ## landLane: One byte of an agent's access likewise. -/

theorem landLane_frame (a k : Nat) (lanes : BitVec 4) (q : Quad) : landLane a k lanes q s =
    { s with
      mem := (landLane a k lanes q s).mem
      stale := (landLane a k lanes q s).stale
      freeCount := (landLane a k lanes q s).freeCount } := by
  unfold landLane; split
  · exact landWrite_frame s (a + k) (getByte q k)
  · rfl

@[simp] theorem landLane_platform (a k : Nat) (lanes : BitVec 4) (q : Quad) : (landLane a k lanes q s).platform = s.platform :=
  (congrArg State.platform (landLane_frame s a k lanes q) :)
@[simp] theorem landLane_regs (a k : Nat) (lanes : BitVec 4) (q : Quad) : (landLane a k lanes q s).regs = s.regs :=
  (congrArg State.regs (landLane_frame s a k lanes q) :)
@[simp] theorem landLane_snap (a k : Nat) (lanes : BitVec 4) (q : Quad) : (landLane a k lanes q s).snap = s.snap :=
  (congrArg State.snap (landLane_frame s a k lanes q) :)
@[simp] theorem landLane_conflict (a k : Nat) (lanes : BitVec 4) (q : Quad) : (landLane a k lanes q s).conflict = s.conflict :=
  (congrArg State.conflict (landLane_frame s a k lanes q) :)
@[simp] theorem landLane_response (a k : Nat) (lanes : BitVec 4) (q : Quad) : (landLane a k lanes q s).response = s.response :=
  (congrArg State.response (landLane_frame s a k lanes q) :)
@[simp] theorem landLane_hostData (a k : Nat) (lanes : BitVec 4) (q : Quad) : (landLane a k lanes q s).hostData = s.hostData :=
  (congrArg State.hostData (landLane_frame s a k lanes q) :)
@[simp] theorem landLane_inReset (a k : Nat) (lanes : BitVec 4) (q : Quad) : (landLane a k lanes q s).inReset = s.inReset :=
  (congrArg State.inReset (landLane_frame s a k lanes q) :)
@[simp] theorem landLane_inputs (a k : Nat) (lanes : BitVec 4) (q : Quad) : (landLane a k lanes q s).inputs = s.inputs :=
  (congrArg State.inputs (landLane_frame s a k lanes q) :)

/-! ## landLanes: All written bytes of an agent's access likewise. -/

theorem landLanes_frame (a : Nat) (lanes : BitVec 4) (q : Quad) : landLanes a lanes q s =
    { s with
      mem := (landLanes a lanes q s).mem
      stale := (landLanes a lanes q s).stale
      freeCount := (landLanes a lanes q s).freeCount } := by
  unfold landLanes; iterate 4 rw [landLane_frame]

@[simp] theorem landLanes_platform (a : Nat) (lanes : BitVec 4) (q : Quad) : (landLanes a lanes q s).platform = s.platform :=
  (congrArg State.platform (landLanes_frame s a lanes q) :)
@[simp] theorem landLanes_regs (a : Nat) (lanes : BitVec 4) (q : Quad) : (landLanes a lanes q s).regs = s.regs :=
  (congrArg State.regs (landLanes_frame s a lanes q) :)
@[simp] theorem landLanes_snap (a : Nat) (lanes : BitVec 4) (q : Quad) : (landLanes a lanes q s).snap = s.snap :=
  (congrArg State.snap (landLanes_frame s a lanes q) :)
@[simp] theorem landLanes_conflict (a : Nat) (lanes : BitVec 4) (q : Quad) : (landLanes a lanes q s).conflict = s.conflict :=
  (congrArg State.conflict (landLanes_frame s a lanes q) :)
@[simp] theorem landLanes_response (a : Nat) (lanes : BitVec 4) (q : Quad) : (landLanes a lanes q s).response = s.response :=
  (congrArg State.response (landLanes_frame s a lanes q) :)
@[simp] theorem landLanes_hostData (a : Nat) (lanes : BitVec 4) (q : Quad) : (landLanes a lanes q s).hostData = s.hostData :=
  (congrArg State.hostData (landLanes_frame s a lanes q) :)
@[simp] theorem landLanes_inReset (a : Nat) (lanes : BitVec 4) (q : Quad) : (landLanes a lanes q s).inReset = s.inReset :=
  (congrArg State.inReset (landLanes_frame s a lanes q) :)
@[simp] theorem landLanes_inputs (a : Nat) (lanes : BitVec 4) (q : Quad) : (landLanes a lanes q s).inputs = s.inputs :=
  (congrArg State.inputs (landLanes_frame s a lanes q) :)

/-! ## agentWrite: An agent's write changes no register (70_reset_and_hazards.md R246). -/

theorem agentWrite_frame (i : BitVec 30) (lanes : BitVec 4) (q : Quad) : agentWrite i lanes q s =
    { s with
      mem := (agentWrite i lanes q s).mem
      stale := (agentWrite i lanes q s).stale
      freeCount := (agentWrite i lanes q s).freeCount
      conflict := (agentWrite i lanes q s).conflict } := by
  unfold agentWrite; dsimp only; split
  · simp only [spoilUnwritten, makeUnspecified]; rw [landLanes_frame]
  · rw [landLanes_frame]

@[simp] theorem agentWrite_platform (i : BitVec 30) (lanes : BitVec 4) (q : Quad) : (agentWrite i lanes q s).platform = s.platform :=
  (congrArg State.platform (agentWrite_frame s i lanes q) :)
@[simp] theorem agentWrite_regs (i : BitVec 30) (lanes : BitVec 4) (q : Quad) : (agentWrite i lanes q s).regs = s.regs :=
  (congrArg State.regs (agentWrite_frame s i lanes q) :)
@[simp] theorem agentWrite_snap (i : BitVec 30) (lanes : BitVec 4) (q : Quad) : (agentWrite i lanes q s).snap = s.snap :=
  (congrArg State.snap (agentWrite_frame s i lanes q) :)
@[simp] theorem agentWrite_response (i : BitVec 30) (lanes : BitVec 4) (q : Quad) : (agentWrite i lanes q s).response = s.response :=
  (congrArg State.response (agentWrite_frame s i lanes q) :)
@[simp] theorem agentWrite_hostData (i : BitVec 30) (lanes : BitVec 4) (q : Quad) : (agentWrite i lanes q s).hostData = s.hostData :=
  (congrArg State.hostData (agentWrite_frame s i lanes q) :)
@[simp] theorem agentWrite_inReset (i : BitVec 30) (lanes : BitVec 4) (q : Quad) : (agentWrite i lanes q s).inReset = s.inReset :=
  (congrArg State.inReset (agentWrite_frame s i lanes q) :)
@[simp] theorem agentWrite_inputs (i : BitVec 30) (lanes : BitVec 4) (q : Quad) : (agentWrite i lanes q s).inputs = s.inputs :=
  (congrArg State.inputs (agentWrite_frame s i lanes q) :)

/-! ## hostRead: A host read changes only its data. -/

theorem hostRead_frame (i : BitVec 30) : hostRead i s =
    { s with
      hostData := (hostRead i s).hostData
      freeCount := (hostRead i s).freeCount } := by
  unfold hostRead; dsimp only; split <;> rfl

@[simp] theorem hostRead_platform (i : BitVec 30) : (hostRead i s).platform = s.platform :=
  (congrArg State.platform (hostRead_frame s i) :)
@[simp] theorem hostRead_regs (i : BitVec 30) : (hostRead i s).regs = s.regs :=
  (congrArg State.regs (hostRead_frame s i) :)
@[simp] theorem hostRead_snap (i : BitVec 30) : (hostRead i s).snap = s.snap :=
  (congrArg State.snap (hostRead_frame s i) :)
@[simp] theorem hostRead_conflict (i : BitVec 30) : (hostRead i s).conflict = s.conflict :=
  (congrArg State.conflict (hostRead_frame s i) :)
@[simp] theorem hostRead_mem (i : BitVec 30) : (hostRead i s).mem = s.mem :=
  (congrArg State.mem (hostRead_frame s i) :)
@[simp] theorem hostRead_stale (i : BitVec 30) : (hostRead i s).stale = s.stale :=
  (congrArg State.stale (hostRead_frame s i) :)
@[simp] theorem hostRead_response (i : BitVec 30) : (hostRead i s).response = s.response :=
  (congrArg State.response (hostRead_frame s i) :)
@[simp] theorem hostRead_inReset (i : BitVec 30) : (hostRead i s).inReset = s.inReset :=
  (congrArg State.inReset (hostRead_frame s i) :)
@[simp] theorem hostRead_inputs (i : BitVec 30) : (hostRead i s).inputs = s.inputs :=
  (congrArg State.inputs (hostRead_frame s i) :)

/-! ## takeInterrupt: Taking the interrupt changes only the host's view. -/

theorem takeInterrupt_frame : takeInterrupt s =
    { s with
      stale := (takeInterrupt s).stale } := by
  unfold takeInterrupt; split <;> rfl

@[simp] theorem takeInterrupt_platform : (takeInterrupt s).platform = s.platform :=
  (congrArg State.platform (takeInterrupt_frame s) :)
@[simp] theorem takeInterrupt_regs : (takeInterrupt s).regs = s.regs :=
  (congrArg State.regs (takeInterrupt_frame s) :)
@[simp] theorem takeInterrupt_snap : (takeInterrupt s).snap = s.snap :=
  (congrArg State.snap (takeInterrupt_frame s) :)
@[simp] theorem takeInterrupt_conflict : (takeInterrupt s).conflict = s.conflict :=
  (congrArg State.conflict (takeInterrupt_frame s) :)
@[simp] theorem takeInterrupt_mem : (takeInterrupt s).mem = s.mem :=
  (congrArg State.mem (takeInterrupt_frame s) :)
@[simp] theorem takeInterrupt_response : (takeInterrupt s).response = s.response :=
  (congrArg State.response (takeInterrupt_frame s) :)
@[simp] theorem takeInterrupt_hostData : (takeInterrupt s).hostData = s.hostData :=
  (congrArg State.hostData (takeInterrupt_frame s) :)
@[simp] theorem takeInterrupt_inReset : (takeInterrupt s).inReset = s.inReset :=
  (congrArg State.inReset (takeInterrupt_frame s) :)
@[simp] theorem takeInterrupt_inputs : (takeInterrupt s).inputs = s.inputs :=
  (congrArg State.inputs (takeInterrupt_frame s) :)
@[simp] theorem takeInterrupt_freeCount : (takeInterrupt s).freeCount = s.freeCount :=
  (congrArg State.freeCount (takeInterrupt_frame s) :)

/-! ## orderRead: A register read changes only the host's view. -/

theorem orderRead_frame (reg : Reg) : orderRead reg s =
    { s with
      stale := (orderRead reg s).stale } := by
  unfold orderRead; split <;> (try split) <;> rfl

@[simp] theorem orderRead_platform (reg : Reg) : (orderRead reg s).platform = s.platform :=
  (congrArg State.platform (orderRead_frame s reg) :)
@[simp] theorem orderRead_regs (reg : Reg) : (orderRead reg s).regs = s.regs :=
  (congrArg State.regs (orderRead_frame s reg) :)
@[simp] theorem orderRead_snap (reg : Reg) : (orderRead reg s).snap = s.snap :=
  (congrArg State.snap (orderRead_frame s reg) :)
@[simp] theorem orderRead_conflict (reg : Reg) : (orderRead reg s).conflict = s.conflict :=
  (congrArg State.conflict (orderRead_frame s reg) :)
@[simp] theorem orderRead_mem (reg : Reg) : (orderRead reg s).mem = s.mem :=
  (congrArg State.mem (orderRead_frame s reg) :)
@[simp] theorem orderRead_response (reg : Reg) : (orderRead reg s).response = s.response :=
  (congrArg State.response (orderRead_frame s reg) :)
@[simp] theorem orderRead_hostData (reg : Reg) : (orderRead reg s).hostData = s.hostData :=
  (congrArg State.hostData (orderRead_frame s reg) :)
@[simp] theorem orderRead_inReset (reg : Reg) : (orderRead reg s).inReset = s.inReset :=
  (congrArg State.inReset (orderRead_frame s reg) :)
@[simp] theorem orderRead_inputs (reg : Reg) : (orderRead reg s).inputs = s.inputs :=
  (congrArg State.inputs (orderRead_frame s reg) :)
@[simp] theorem orderRead_freeCount (reg : Reg) : (orderRead reg s).freeCount = s.freeCount :=
  (congrArg State.freeCount (orderRead_frame s reg) :)

/-! ## spoilDestination: A reset during an operation spoils memory. -/

theorem spoilDestination_frame : spoilDestination s =
    { s with
      mem := (spoilDestination s).mem
      freeCount := (spoilDestination s).freeCount } := by
  unfold spoilDestination; split <;> rfl

@[simp] theorem spoilDestination_platform : (spoilDestination s).platform = s.platform :=
  (congrArg State.platform (spoilDestination_frame s) :)
@[simp] theorem spoilDestination_regs : (spoilDestination s).regs = s.regs :=
  (congrArg State.regs (spoilDestination_frame s) :)
@[simp] theorem spoilDestination_snap : (spoilDestination s).snap = s.snap :=
  (congrArg State.snap (spoilDestination_frame s) :)
@[simp] theorem spoilDestination_conflict : (spoilDestination s).conflict = s.conflict :=
  (congrArg State.conflict (spoilDestination_frame s) :)
@[simp] theorem spoilDestination_stale : (spoilDestination s).stale = s.stale :=
  (congrArg State.stale (spoilDestination_frame s) :)
@[simp] theorem spoilDestination_response : (spoilDestination s).response = s.response :=
  (congrArg State.response (spoilDestination_frame s) :)
@[simp] theorem spoilDestination_hostData : (spoilDestination s).hostData = s.hostData :=
  (congrArg State.hostData (spoilDestination_frame s) :)
@[simp] theorem spoilDestination_inReset : (spoilDestination s).inReset = s.inReset :=
  (congrArg State.inReset (spoilDestination_frame s) :)
@[simp] theorem spoilDestination_inputs : (spoilDestination s).inputs = s.inputs :=
  (congrArg State.inputs (spoilDestination_frame s) :)

/-! ## assertReset: Reset keeps the platform and the outside world's inputs. -/

theorem assertReset_frame : assertReset s =
    { s with
      regs := (assertReset s).regs
      snap := (assertReset s).snap
      conflict := (assertReset s).conflict
      mem := (assertReset s).mem
      response := (assertReset s).response
      inReset := (assertReset s).inReset
      freeCount := (assertReset s).freeCount } := by
  unfold assertReset; dsimp only; rw [spoilDestination_frame]

@[simp] theorem assertReset_platform : (assertReset s).platform = s.platform :=
  (congrArg State.platform (assertReset_frame s) :)
@[simp] theorem assertReset_stale : (assertReset s).stale = s.stale :=
  (congrArg State.stale (assertReset_frame s) :)
@[simp] theorem assertReset_hostData : (assertReset s).hostData = s.hostData :=
  (congrArg State.hostData (assertReset_frame s) :)
@[simp] theorem assertReset_inputs : (assertReset s).inputs = s.inputs :=
  (congrArg State.inputs (assertReset_frame s) :)

/-! ## writePixel: Writing a pixel changes memory, `STATUS` and `PROGRESS`. -/

theorem writePixel_frame (q : Quad) : writePixel q s =
    { s with
      regs := (writePixel q s).regs
      mem := (writePixel q s).mem
      stale := (writePixel q s).stale
      freeCount := (writePixel q s).freeCount } := by
  unfold writePixel countPixel; dsimp only; split <;> (try split) <;> rfl

@[simp] theorem writePixel_platform (q : Quad) : (writePixel q s).platform = s.platform :=
  (congrArg State.platform (writePixel_frame s q) :)
@[simp] theorem writePixel_snap (q : Quad) : (writePixel q s).snap = s.snap :=
  (congrArg State.snap (writePixel_frame s q) :)
@[simp] theorem writePixel_conflict (q : Quad) : (writePixel q s).conflict = s.conflict :=
  (congrArg State.conflict (writePixel_frame s q) :)
@[simp] theorem writePixel_response (q : Quad) : (writePixel q s).response = s.response :=
  (congrArg State.response (writePixel_frame s q) :)
@[simp] theorem writePixel_hostData (q : Quad) : (writePixel q s).hostData = s.hostData :=
  (congrArg State.hostData (writePixel_frame s q) :)
@[simp] theorem writePixel_inReset (q : Quad) : (writePixel q s).inReset = s.inReset :=
  (congrArg State.inReset (writePixel_frame s q) :)
@[simp] theorem writePixel_inputs (q : Quad) : (writePixel q s).inputs = s.inputs :=
  (congrArg State.inputs (writePixel_frame s q) :)

end Sys2Proof.Machine
end

