-- ==== Sys2Proof/Laws/Memory.lean ====
section
/-! SUPPORT. Memory: a read after a write, the bytes a write leaves alone, and the canonical form, for one
byte, for a pixel's four lanes and for a range of unspecified bytes; and the byte lanes of the bus. -/

namespace Sys2Proof.Machine

/-! ## One byte -/

theorem read_erase_same (m : Memory) (a : Nat) : (m.erase a).read a = unlistedByte := by
  induction m with
  | nil => rfl
  | cons c rest ih =>
    obtain ⟨k, v⟩ := c
    by_cases h : k = a
    · subst h; simpa [Memory.erase] using ih
    · simpa [Memory.erase, Memory.read, h] using ih

theorem read_erase_other (m : Memory) {a x : Nat} (hx : x ≠ a) : (m.erase a).read x = m.read x := by
  induction m with
  | nil => rfl
  | cons c rest ih =>
    obtain ⟨k, v⟩ := c
    by_cases h : k = a
    · subst h; simpa [Memory.erase, Memory.read, Ne.symm hx] using ih
    · have ih' : Memory.read (rest.filter fun c => c.1 != a) x = Memory.read rest x := ih
      simp [Memory.erase, Memory.read, h, ih']

theorem read_insert_same (m : Memory) (a : Nat) (b : Byte) : (m.insert a b).read a = b := by
  induction m with
  | nil => simp [Memory.insert, Memory.read]
  | cons c rest ih =>
    obtain ⟨k, v⟩ := c
    unfold Memory.insert
    split_ifs with h1 h2
    · simp [Memory.read]
    · simp [Memory.read]
    · simp [Memory.read, Ne.symm h2, ih]

theorem read_insert_other (m : Memory) {a x : Nat} (b : Byte) (hx : x ≠ a) :
    (m.insert a b).read x = m.read x := by
  induction m with
  | nil => simp [Memory.insert, Memory.read, Ne.symm hx]
  | cons c rest ih =>
    obtain ⟨k, v⟩ := c
    unfold Memory.insert
    split_ifs with h1 h2
    · simp [Memory.read, Ne.symm hx]
    · subst h2; simp [Memory.read, Ne.symm hx]
    · simp [Memory.read, ih]

theorem read_write_same (m : Memory) {a : Nat} (b : Byte) (ha : a < memBytes) :
    (m.write a b).read a = b := by
  unfold Memory.write
  rw [if_pos ha]
  split_ifs with h
  · rw [h, read_erase_same]
  · exact read_insert_same m a b

theorem read_write_other (m : Memory) {a x : Nat} (b : Byte) (hx : x ≠ a) :
    (m.write a b).read x = m.read x := by
  unfold Memory.write
  split_ifs
  · exact read_erase_other m hx
  · exact read_insert_other m b hx
  · rfl

/-! ## The canonical form -/

theorem wf_cons {k : Nat} {b : Byte} {rest : Memory} :
    Memory.wf ((k, b) :: rest) = true ↔
      k < memBytes ∧ b ≠ unlistedByte ∧ (∀ c ∈ rest, k < c.1) ∧ Memory.wf rest = true := by
  simp [Memory.wf, and_assoc]

theorem mem_erase {m : Memory} {a : Nat} {c : Host.Cell} (h : c ∈ m.erase a) : c ∈ m :=
  List.mem_of_mem_filter h

theorem wf_erase {m : Memory} (a : Nat) (h : Memory.wf m = true) : Memory.wf (m.erase a) = true := by
  induction m with
  | nil => rfl
  | cons c rest ih =>
    obtain ⟨k, v⟩ := c
    obtain ⟨h1, h2, h3, h4⟩ := wf_cons.1 h
    by_cases hk : k = a
    · subst hk; simpa [Memory.erase] using ih h4
    · have : Memory.erase ((k, v) :: rest) a = (k, v) :: Memory.erase rest a := by
        simp [Memory.erase, hk]
      rw [this]
      exact wf_cons.2 ⟨h1, h2, fun c hc => h3 c (mem_erase hc), ih h4⟩

theorem mem_insert {m : Memory} {a : Nat} {b : Byte} {c : Host.Cell} (h : c ∈ m.insert a b) :
    c = (a, b) ∨ c ∈ m := by
  induction m with
  | nil => simpa [Memory.insert] using h
  | cons d rest ih =>
    obtain ⟨k, v⟩ := d
    unfold Memory.insert at h
    split_ifs at h
    · simpa using h
    · rcases List.mem_cons.1 h with h | h
      · exact .inl h
      · exact .inr (List.mem_cons_of_mem _ h)
    · rcases List.mem_cons.1 h with h | h
      · exact .inr (h ▸ List.mem_cons_self)
      · exact (ih h).imp_right (List.mem_cons_of_mem _)

theorem wf_insert {m : Memory} {a : Nat} {b : Byte} (ha : a < memBytes) (hb : b ≠ unlistedByte)
    (h : Memory.wf m = true) : Memory.wf (m.insert a b) = true := by
  induction m with
  | nil => exact wf_cons.2 ⟨ha, hb, by simp, rfl⟩
  | cons c rest ih =>
    obtain ⟨k, v⟩ := c
    obtain ⟨h1, h2, h3, h4⟩ := wf_cons.1 h
    unfold Memory.insert
    split_ifs with hk he
    · refine wf_cons.2 ⟨ha, hb, fun c hc => ?_, h⟩
      rcases List.mem_cons.1 hc with hc | hc
      · exact hc ▸ hk
      · exact hk.trans (h3 c hc)
    · subst he; exact wf_cons.2 ⟨ha, hb, h3, h4⟩
    · refine wf_cons.2 ⟨h1, h2, fun c hc => ?_, ih h4⟩
      rcases mem_insert hc with hc | hc
      · subst hc; show k < a; omega
      · exact h3 c hc

/-- A write keeps the canonical form. -/
theorem wf_write {m : Memory} (a : Nat) (b : Byte) (h : Memory.wf m = true) :
    Memory.wf (m.write a b) = true := by
  unfold Memory.write
  split_ifs with ha hb
  · exact wf_erase a h
  · exact wf_insert ha hb h
  · exact h

/-! ## A pixel's four bytes (20_memory.md R63) -/

theorem wf_storeLanes {m : Memory} (a : Nat) (w : Word) (h : Memory.wf m = true) :
    Memory.wf (storeLanes m a w) = true :=
  wf_write _ _ (wf_write _ _ (wf_write _ _ (wf_write _ _ h)))

/-- A store of four bytes leaves every other byte alone. -/
theorem read_storeLanes_other (m : Memory) {a x : Nat} (w : Word) (hx : x < a ∨ a + 4 ≤ x) :
    (storeLanes m a w).read x = m.read x := by
  unfold storeLanes
  rw [read_write_other _ _ (by omega), read_write_other _ _ (by omega), read_write_other _ _ (by omega),
    read_write_other _ _ (by omega)]

/-- A store of four bytes inside the space puts lane `k` at the `k`-th byte. -/
theorem loadQuad_storeLanes (m : Memory) {a : Nat} (w : Word) (ha : a + 4 ≤ memBytes) :
    loadQuad (storeLanes m a w) a = ofLanes w := by
  have h0 : (storeLanes m a w).read a = lane 0 w := by
    unfold storeLanes
    rw [read_write_other _ _ (by omega), read_write_other _ _ (by omega),
      read_write_other _ _ (by omega), read_write_same _ _ (by omega)]
  have h1 : (storeLanes m a w).read (a + 1) = lane 1 w := by
    unfold storeLanes
    rw [read_write_other _ _ (by omega), read_write_other _ _ (by omega), read_write_same _ _ (by omega)]
  have h2 : (storeLanes m a w).read (a + 2) = lane 2 w := by
    unfold storeLanes
    rw [read_write_other _ _ (by omega), read_write_same _ _ (by omega)]
  have h3 : (storeLanes m a w).read (a + 3) = lane 3 w := by
    unfold storeLanes
    rw [read_write_same _ _ (by omega)]
  simp [loadQuad, ofLanes, h0, h1, h2, h3]

/-- A load depends only on its four bytes. -/
theorem loadQuad_congr {m n : Memory} {a : Nat} (h : ∀ x, a ≤ x → x < a + 4 → m.read x = n.read x) :
    loadQuad m a = loadQuad n a := by
  simp [loadQuad, h a (by omega) (by omega), h (a + 1) (by omega) (by omega),
    h (a + 2) (by omega) (by omega), h (a + 3) (by omega) (by omega)]

/-! ## Unspecified bytes -/

theorem wf_fillFree {m : Memory} (base len first : Nat) (h : Memory.wf m = true) :
    Memory.wf (fillFree m base len first) = true := by
  induction len with
  | zero => exact h
  | succ n ih => exact wf_write _ _ ih

/-- Unspecified bytes leave every other byte alone. -/
theorem read_fillFree_other (m : Memory) {base len x : Nat} (first : Nat) (hx : x < base ∨ base + len ≤ x) :
    (fillFree m base len first).read x = m.read x := by
  induction len with
  | zero => rfl
  | succ n ih => rw [fillFree, read_write_other _ _ (by omega), ih (by omega)]

/-- Each unspecified byte is a free value of its own. -/
theorem read_fillFree_inside (m : Memory) {base len k : Nat} (first : Nat) (hk : k < len)
    (hs : base + k < memBytes) :
    (fillFree m base len first).read (base + k) = Config.freeByte (first + k) := by
  induction len with
  | zero => omega
  | succ n ih =>
    rw [fillFree]
    by_cases h : k = n
    · subst h; exact read_write_same _ _ hs
    · rw [read_write_other _ _ (by omega), ih (by omega)]

/-! ## Byte lanes (20_memory.md R69) -/

@[simp] theorem ofLanes_toLanes (q : Quad) : ofLanes (toLanes q) = q := by
  obtain ⟨b0, b1, b2, b3⟩ := q
  simp only [ofLanes, toLanes, lane, Quad.mk.injEq]
  refine ⟨?_, ?_, ?_, ?_⟩ <;> ext i hi <;>
    simp only [BitVec.getElem_extractLsb', BitVec.getLsbD_append] <;> interval_cases i <;> simp

/-- A read returns the bytes in address order. -/
@[simp] theorem ofLanes_loadLanes (m : Memory) (a : Nat) : ofLanes (loadLanes m a) = loadQuad m a :=
  ofLanes_toLanes (loadQuad m a)

/-- `MemRead` (20_memory.md R62). -/
theorem memRead_eq (p : Platform) (m : Memory) (a : Nat) :
    memRead p m a = if backedQuad p a then some (loadQuad m a) else none := by
  simp [memRead]

end Sys2Proof.Machine
end

