-- ==== Sys2Proof/Laws/Operands.lean ====
section
/-! SUPPORT. What the operand functions can answer: channel orders, extents, the coordinate mapping and the
validation of a snapshot. -/

namespace Sys2Proof.Machine

/-! ## Channel order (10_state.md R45) -/

@[simp] theorem encodePixel_decodePixel (f : Format) (q : Quad) : encodePixel f (decodePixel f q) = q := by
  cases f <;> rfl

@[simp] theorem decodePixel_encodePixel (f : Format) (p : Pixel) : decodePixel f (encodePixel f p) = p := by
  cases f <;> rfl

/-- Only the reserved code has no channel order (10_state.md R46). -/
theorem ofCode_eq_none {fmt : BitVec 2} : Format.ofCode fmt = none ↔ fmt = 3#2 := by
  revert fmt; decide

/-! ## Validation (41_commands.md R143) -/

/-- All that an accepted snapshot satisfies, and only that (41_commands.md R143). -/
theorem validate_accepted {sn : Snapshot} : validate sn = .accepted ↔
    sn.fmt ≠ 3#2 ∧ (sn.dstW ≠ 0 ∧ sn.dstH ≠ 0) ∧ (sn.srcW ≠ 0 ∧ sn.srcH ≠ 0) ∧
    4 * sn.srcW.toNat ≤ sn.srcStride.toNat ∧
    (sn.srcBase.toNat % 4 = 0 ∧ sn.srcStride.toNat % 4 = 0 ∧ sn.dstBase.toNat % 4 = 0) ∧
    (srcEnd sn ≤ memBytes ∧ dstEnd sn ≤ memBytes) ∧
    (dstEnd sn ≤ srcStart sn ∨ srcEnd sn ≤ dstStart sn) := by
  constructor
  · intro h
    unfold validate at h
    split_ifs at h with h1 h2 h3 h4 h5 h6 h7
    simp only [not_or, ne_eq, not_not, not_lt] at h2 h3 h4 h5 h6
    exact ⟨h1, h2, h3, h4, h5, h6, by omega⟩
  · rintro ⟨h1, h2, h3, h4, h5, h6, h7⟩
    unfold validate
    rw [if_neg h1, if_neg (by tauto), if_neg (by tauto), if_neg (by omega), if_neg (by omega),
      if_neg (by omega), if_neg (by omega)]

/-- A nonzero field counts at least one pixel. -/
theorem toNat_pos_of_ne_zero {n : Nat} {b : BitVec n} (h : b ≠ 0) : 0 < b.toNat := by
  rcases Nat.eq_zero_or_pos b.toNat with h0 | h0
  · exact absurd (BitVec.eq_of_toNat_eq (by simpa using h0)) h
  · exact h0

/-- The destination extent is four bytes a pixel (20_memory.md R67). -/
theorem dstEnd_eq (sn : Snapshot) : dstEnd sn = dstStart sn + 4 * pixelCount sn := by
  simp [dstEnd, dstStart, pixelCount, Nat.mul_assoc]

/-- Destination pixel `i` of the row-major scan is `4 * i` bytes into the extent (20_memory.md R65,
10_state.md R37). -/
theorem pixelAddr_eq (sn : Snapshot) (i : Nat) : pixelAddr sn i = dstStart sn + 4 * i := by
  have h := Nat.mod_add_div' i sn.dstW.toNat
  simp only [pixelAddr, dstAddr, scanX, scanY, dstStart]
  omega

/-! ## Coordinate mapping (42_resize_datapath.md R162, R163) -/

/-- The mapping's result, its numerator taken on natural numbers. -/
theorem axis_eq (i nNew nSrc : Nat) : axis i nNew nSrc =
    let n := (2 * i + 1) * nSrc - nNew
    { base := n / (2 * nNew), frac := n % (2 * nNew), denom := 2 * nNew,
      step := if n / (2 * nNew) + 1 < nSrc then 1 else 0 } := by
  have hn : (axisNumerator i nNew nSrc).toNat = (2 * i + 1) * nSrc - nNew := by
    unfold axisNumerator; push_cast [← Int.toNat_sub]; congr 1
  by_cases h : axisNumerator i nNew nSrc < 0
  · have h0 : (2 * i + 1) * nSrc - nNew = 0 := by rw [← hn]; omega
    simp only [axis, if_pos h, h0, Nat.zero_div, Nat.zero_mod, Nat.zero_add]
    congr 1
    by_cases h1 : 1 < nSrc
    · rw [if_pos (by omega), if_pos h1]
    · rw [if_neg (by omega), if_neg h1]
  · simp only [axis, if_neg h, hn]
    congr 1
    by_cases h1 : ((2 * i + 1) * nSrc - nNew) / (2 * nNew) + 1 < nSrc
    · rw [if_pos (by omega), if_pos h1]
    · rw [if_neg (by omega), if_neg h1]

end Sys2Proof.Machine
end

