-- ==== Sys2Proof/Laws/Ops.lean ====
section
/-! SUPPORT. What each shared operation of the machine can answer, said once: commands, the engine's step,
the inputs, and a step of the whole machine. -/

namespace Sys2Proof.Machine

/-! ## Commands (41_commands.md R140 to R146) -/

theorem submit_busy (w : Word) (f : State → State) {s : State} (h : s.regs.busy = true) :
    submit w f s = discardCommand w s := by simp [submit, h]

theorem submit_idle (w : Word) (f : State → State) {s : State} (h : s.regs.busy = false) :
    submit w f s = f s := by simp [submit, h]

/-- How a taken `RESIZE` ends (41_commands.md R143). -/
theorem startResize_cases (s : State) :
    (validate (takeSnapshot s.regs) = .accepted ∧
      startResize s = { takeResize s with regs := { (takeResize s).regs with busy := true } }) ∨
    (validate (takeSnapshot s.regs) = .empty ∧ startResize s = endOperation .none (takeResize s)) ∨
    (∃ code, validate (takeSnapshot s.regs) = .rejected code ∧
      startResize s = endOperation code (takeResize s)) := by
  unfold startResize
  cases h : validate (takeSnapshot s.regs) with
  | accepted => simp [h]
  | empty => simp [h]
  | rejected code => simp [h]

/-- What an idle engine does with a command word: four cases, one for each row of the opcode map and one for
every other word (30_encoding.md R92, 41_commands.md R140). -/
theorem idleCommand_eq (w : Word) (s : State) : idleCommand w s =
    if w = nopWord then s else if w = resizeWord then startResize s
    else if w = clearWord then acknowledge s else illegalWord s := by
  unfold idleCommand decodeCommand
  split_ifs <;> rfl

/-- A command word touches neither memory nor the platform, the inputs or the free values: it reads and
writes registers and the snapshot alone (41_commands.md R140 to R146). -/
theorem command_frame (w : Word) (s : State) :
    (command w s).platform = s.platform ∧ (command w s).mem = s.mem ∧ (command w s).stale = s.stale ∧
    (command w s).response = s.response ∧ (command w s).hostData = s.hostData ∧
    (command w s).inReset = s.inReset ∧ (command w s).inputs = s.inputs ∧
    (command w s).freeCount = s.freeCount := by
  unfold command submit discardCommand
  rw [idleCommand_eq]
  split_ifs <;> try simp [illegalWord]
  rcases startResize_cases s with ⟨_, h⟩ | ⟨_, h⟩ | ⟨_, _, h⟩ <;> rw [h] <;> simp

/-- Submitting the word of a decoded command is running that command (41_commands.md R140). -/
theorem command_of_decode {w : Word} {i : Instr} (h : decodeCommand w = .ok i) (s : State) :
    exec i s = .next (respond (.okay none) (command w s)) := by
  unfold decodeCommand at h
  split_ifs at h with h0 h1 h2 <;> cases h <;> subst_vars <;>
    simp [exec, execNop, execResize, execClear, command, submit, idleCommand_eq, nopWord, resizeWord,
      clearWord]

/-! ## The engine's step (42_resize_datapath.md R170) -/

/-- The four neighbours are read exactly when all their bytes are backed (42_resize_datapath.md R165). -/
theorem gather_eq_some {p : Platform} {m : Memory} {sn : Snapshot} {f : Format} {ax ay : Axis}
    {n : Neighbours} : gather p m sn f ax ay = some n ↔
      readNeighbour p m sn f ax.base ay.base = some n.p00 ∧
      readNeighbour p m sn f (ax.base + ax.step) ay.base = some n.p10 ∧
      readNeighbour p m sn f ax.base (ay.base + ay.step) = some n.p01 ∧
      readNeighbour p m sn f (ax.base + ax.step) (ay.base + ay.step) = some n.p11 := by
  obtain ⟨p00, p10, p01, p11⟩ := n
  simp [gather, Option.bind_eq_some_iff]

/-- A neighbour read answers the decoded bytes exactly when they are backed (42_resize_datapath.md R165,
R166). -/
theorem readNeighbour_eq (p : Platform) (m : Memory) (sn : Snapshot) (f : Format) (px py : Nat) :
    readNeighbour p m sn f px py =
      if backedQuad p (srcAddr sn px py) then some (decodePixel f (loadQuad m (srcAddr sn px py)))
      else none := by
  unfold readNeighbour; rw [memRead_eq]; split_ifs <;> rfl

/-- What writing a pixel can do: store and count it, store it as the last, or fail (42_resize_datapath.md
R170). -/
theorem writePixel_cases (q : Quad) (s : State) :
    let a := pixelAddr s.snap s.regs.progress.toNat
    (backedQuad s.platform a = true ∧ s.regs.progress.toNat + 1 ≠ pixelCount s.snap ∧
      writePixel q s = { storePixel a (bytesToWrite q s) s with
        regs := { s.regs with progress := s.regs.progress + 1 } }) ∨
    (backedQuad s.platform a = true ∧ s.regs.progress.toNat + 1 = pixelCount s.snap ∧
      writePixel q s = { storePixel a (bytesToWrite q s) s with
        regs := { s.regs with progress := s.regs.progress + 1, busy := false, done := true, err := .none } }) ∨
    (backedQuad s.platform a = false ∧ writePixel q s = stopBus (makeUnspecified a 4 s)) := by
  intro a
  cases hb : backedQuad s.platform a with
  | false => exact .inr (.inr ⟨rfl, by simp only [writePixel]; rw [if_neg (by simpa [a] using hb)]⟩)
  | true =>
    have hw : writePixel q s = countPixel (storePixel a (bytesToWrite q s) s) := by
      simp only [writePixel]; rw [if_pos (by simpa [a] using hb)]
    rw [hw]
    by_cases hl : s.regs.progress.toNat + 1 = pixelCount s.snap
    · exact .inr (.inl ⟨rfl, hl, by
        unfold countPixel
        rw [if_pos (show (storePixel a (bytesToWrite q s) s).regs.progress.toNat + 1 =
          pixelCount (storePixel a (bytesToWrite q s) s).snap from hl)]
        rfl⟩)
    · exact .inl ⟨rfl, hl, by
        unfold countPixel
        rw [if_neg (show ¬(storePixel a (bytesToWrite q s) s).regs.progress.toNat + 1 =
          pixelCount (storePixel a (bytesToWrite q s) s).snap from hl)]
        rfl⟩

/-- What a step of a busy engine can do (42_resize_datapath.md R170). -/
theorem pixelStep_cases {s t : State} (h : pixelStep s = .next t) :
    validOperation s = true ∧ ordinaryExtents s.platform s.snap = true ∧
    ((∃ q, pixelBytes s.platform s.mem s.snap s.regs.progress.toNat = some q ∧ t = writePixel q s) ∨
      (pixelBytes s.platform s.mem s.snap s.regs.progress.toNat = none ∧ t = stopBus s)) := by
  unfold pixelStep at h
  split_ifs at h with hv ho
  refine ⟨hv, ho, ?_⟩
  split at h
  · rename_i q hq; cases h; exact .inl ⟨q, hq, rfl⟩
  · rename_i hq; cases h; exact .inr ⟨hq, rfl⟩

/-! ## An agent's memory write (20_memory.md R71, 70_reset_and_hazards.md R246) -/

/-- A byte of an agent's write leaves every other byte alone. -/
theorem read_landWrite_other (s : State) {a x : Nat} (b : Byte) (hx : x ≠ a) :
    (landWrite a b s).mem.read x = s.mem.read x := by
  unfold landWrite
  split
  · exact read_write_other _ _ hx
  · exact read_fillFree_other _ _ (by omega)

/-- A byte of an agent's write at a backed address lands as written. -/
theorem read_landWrite_same (s : State) {a : Nat} (b : Byte) (ha : a < memBytes)
    (hb : backed s.platform a = true) : (landWrite a b s).mem.read a = b := by
  unfold landWrite; rw [if_pos hb]; exact read_write_same _ _ ha

/-- One lane of an agent's write: its byte where the lane is written, every other byte as before. -/
theorem read_landLane (s : State) (a k : Nat) (lanes : BitVec 4) (q : Quad) (x : Nat) (ha : a + k < memBytes)
    (hb : lanes.getLsbD k = true → backed s.platform (a + k) = true) :
    (landLane a k lanes q s).mem.read x =
      if x = a + k ∧ lanes.getLsbD k = true then getByte q k else s.mem.read x := by
  unfold landLane
  by_cases hl : lanes.getLsbD k = true
  · rw [if_pos hl]
    by_cases hx : x = a + k
    · rw [if_pos ⟨hx, hl⟩, hx]; exact read_landWrite_same s _ ha (hb hl)
    · rw [if_neg (fun h => hx h.1)]; exact read_landWrite_other s _ hx
  · rw [if_neg hl, if_neg (fun h => hl h.2)]

/-- One lane of an agent's write leaves every byte but its own alone, backed or not. -/
theorem read_landLane_other (s : State) (a k : Nat) (lanes : BitVec 4) (q : Quad) {x : Nat}
    (hx : lanes.getLsbD k = true → x ≠ a + k) :
    (landLane a k lanes q s).mem.read x = s.mem.read x := by
  unfold landLane
  split
  · exact read_landWrite_other s _ (hx ‹_›)
  · rfl

/-- An agent's write leaves every byte but the written lanes alone. -/
theorem read_landLanes_other (s : State) (a : Nat) (lanes : BitVec 4) (q : Quad) {x : Nat}
    (hx : ∀ k < 4, lanes.getLsbD k = true → x ≠ a + k) :
    (landLanes a lanes q s).mem.read x = s.mem.read x := by
  unfold landLanes
  rw [read_landLane_other _ _ _ _ _ (hx 3 (by omega)), read_landLane_other _ _ _ _ _ (hx 2 (by omega)),
    read_landLane_other _ _ _ _ _ (hx 1 (by omega)), read_landLane_other _ _ _ _ _ (hx 0 (by omega))]

/-- A written lane of an agent's write at a backed address lands as written. -/
theorem read_landLanes_same (s : State) (a : Nat) (lanes : BitVec 4) (q : Quad) {k : Nat} (hk : k < 4)
    (hl : lanes.getLsbD k = true) (ha : a + 4 ≤ memBytes) (hb : backed s.platform (a + k) = true) :
    (landLanes a lanes q s).mem.read (a + k) = getByte q k := by
  have same : ∀ t : State, t.platform = s.platform →
      (landLane a k lanes q t).mem.read (a + k) = getByte q k := by
    intro t ht
    rw [read_landLane t a k lanes q _ (by omega) (fun _ => by rw [ht]; exact hb), if_pos ⟨rfl, hl⟩]
  have other : ∀ (j : Nat) (t : State), j ≠ k →
      (landLane a j lanes q t).mem.read (a + k) = t.mem.read (a + k) :=
    fun j t hj => read_landLane_other t a j lanes q (fun _ => by omega)
  unfold landLanes
  interval_cases k
  · rw [other 3 _ (by omega), other 2 _ (by omega), other 1 _ (by omega), same _ rfl]
  · rw [other 3 _ (by omega), other 2 _ (by omega), same _ (by simp)]
  · rw [other 3 _ (by omega), same _ (by simp)]
  · rw [same _ (by simp)]

/-- A byte of an agent's write at an address that is not backed becomes a free value (log entry 17). -/
theorem read_landWrite_unbacked (s : State) {a : Nat} (b : Byte) (ha : a < memBytes)
    (hb : backed s.platform a = false) : (landWrite a b s).mem.read a = Config.freeByte s.freeCount := by
  unfold landWrite
  rw [if_neg (by simp [hb])]
  exact read_fillFree_inside (k := 0) s.mem s.freeCount Nat.one_pos ha

/-- A lane of an agent's write draws free values or none. -/
theorem le_landLane_freeCount (s : State) (a k : Nat) (lanes : BitVec 4) (q : Quad) :
    s.freeCount ≤ (landLane a k lanes q s).freeCount := by
  unfold landLane landWrite
  split_ifs <;> simp

/-- A written lane of an agent's write at an address that is not backed becomes a free value (log entry 17). -/
theorem read_landLanes_unbacked (s : State) (a : Nat) (lanes : BitVec 4) (q : Quad) {k : Nat} (hk : k < 4)
    (hl : lanes.getLsbD k = true) (ha : a + 4 ≤ memBytes) (hb : backed s.platform (a + k) = false) :
    ∃ n, s.freeCount ≤ n ∧ (landLanes a lanes q s).mem.read (a + k) = Config.freeByte n := by
  have same : ∀ t : State, t.platform = s.platform →
      (landLane a k lanes q t).mem.read (a + k) = Config.freeByte t.freeCount := by
    intro t ht
    unfold landLane
    rw [if_pos hl]
    exact read_landWrite_unbacked t _ (by omega) (by rw [ht]; exact hb)
  have other : ∀ (j : Nat) (t : State), j ≠ k →
      (landLane a j lanes q t).mem.read (a + k) = t.mem.read (a + k) :=
    fun j t hj => read_landLane_other t a j lanes q (fun _ => by omega)
  have grow := fun t j => le_landLane_freeCount t a j lanes q
  unfold landLanes
  interval_cases k
  · exact ⟨_, le_rfl, by rw [other 3 _ (by omega), other 2 _ (by omega), other 1 _ (by omega), same _ rfl]⟩
  · exact ⟨_, grow _ 0, by rw [other 3 _ (by omega), other 2 _ (by omega), same _ (by simp)]⟩
  · exact ⟨_, (grow _ 0).trans (grow _ 1), by rw [other 3 _ (by omega), same _ (by simp)]⟩
  · exact ⟨_, (grow _ 0).trans ((grow _ 1).trans (grow _ 2)), by rw [same _ (by simp)]⟩

/-- A byte of an agent's write keeps memory's canonical form and the addresses of the unshown writes. -/
theorem landLane_keeps (s : State) (a k : Nat) (lanes : BitVec 4) (q : Quad) :
    (Memory.wf s.mem = true → Memory.wf (landLane a k lanes q s).mem = true) ∧
    (landLane a k lanes q s).stale.map StalePixel.addr = s.stale.map StalePixel.addr := by
  unfold landLane landWrite
  split_ifs
  · refine ⟨wf_write _ _, ?_⟩
    simp only [List.map_map]
    exact List.map_congr_left fun v _ => by simp only [Function.comp, patchStale]; split <;> rfl
  · exact ⟨wf_fillFree _ _ _, rfl⟩
  · exact ⟨id, rfl⟩

/-- An agent's write keeps memory's canonical form and the addresses of the unshown writes. -/
theorem agentWrite_keeps (s : State) (i : BitVec 30) (lanes : BitVec 4) (q : Quad) :
    (Memory.wf s.mem = true → Memory.wf (agentWrite i lanes q s).mem = true) ∧
    (agentWrite i lanes q s).stale.map StalePixel.addr = s.stale.map StalePixel.addr := by
  have hl : (Memory.wf s.mem = true → Memory.wf (landLanes (4 * i.toNat) lanes q s).mem = true) ∧
      (landLanes (4 * i.toNat) lanes q s).stale.map StalePixel.addr = s.stale.map StalePixel.addr := by
    have keeps := landLane_keeps (a := 4 * i.toNat) (lanes := lanes) (q := q)
    unfold landLanes
    exact ⟨fun h => (keeps _ 3).1 ((keeps _ 2).1 ((keeps _ 1).1 ((keeps _ 0).1 h))),
      (keeps _ 3).2.trans ((keeps _ 2).2.trans ((keeps _ 1).2.trans (keeps _ 0).2))⟩
  unfold agentWrite
  dsimp only
  split
  · exact ⟨fun h => wf_fillFree _ _ _ (hl.1 h), hl.2⟩
  · exact hl

/-- An agent's write conflicts with the running operation exactly when one of its written bytes lies in an
extent (70_reset_and_hazards.md R246). -/
theorem lanesConflict_iff {a : Nat} {lanes : BitVec 4} {s : State} :
    lanesConflict a lanes s = true ↔ s.regs.busy = true ∧ ∃ k < 4, lanes.getLsbD k = true ∧
      (inSource s.snap (a + k) = true ∨ inDestination s.snap (a + k) = true) := by
  simp only [lanesConflict, conflicts, Bool.or_eq_true, Bool.and_eq_true]
  constructor
  · rintro (((⟨hl, hb, h⟩ | ⟨hl, hb, h⟩) | ⟨hl, hb, h⟩) | ⟨hl, hb, h⟩)
    exacts [⟨hb, 0, by omega, hl, h⟩, ⟨hb, 1, by omega, hl, h⟩, ⟨hb, 2, by omega, hl, h⟩,
      ⟨hb, 3, by omega, hl, h⟩]
  · rintro ⟨hb, k, hk, hl, h⟩
    interval_cases k
    exacts [.inl (.inl (.inl ⟨hl, hb, h⟩)), .inl (.inl (.inr ⟨hl, hb, h⟩)), .inl (.inr ⟨hl, hb, h⟩),
      .inr ⟨hl, hb, h⟩]

/-! ## A host's memory read (20_memory.md R75, 70_reset_and_hazards.md R243) -/

/-- An early result is that of a pixel of the running operation which the engine has still to write
(70_reset_and_hazards.md R243). -/
theorem earlyResult_eq_some {a : Nat} {s : State} {q : Quad} (h : earlyResult a s = some q) :
    ∃ i r, s.regs.busy = true ∧ s.regs.progress.toNat ≤ i ∧ i < pixelCount s.snap ∧
      a = pixelAddr s.snap i ∧ pixelBytes s.platform s.mem s.snap i = some r ∧ q = bytesToWrite r s := by
  unfold earlyResult at h
  dsimp only at h
  split_ifs at h with hc
  simp only [Bool.and_eq_true, decide_eq_true_eq] at hc
  obtain ⟨⟨⟨⟨⟨hb, -⟩, -⟩, hp⟩, hi⟩, ha⟩ := hc
  obtain ⟨r, hr, rfl⟩ := Option.map_eq_some_iff.1 h
  exact ⟨_, r, hb, hp, hi, ha, hr, rfl⟩

/-- A pixel the engine has counted has no early result: a read of it returns what memory holds or old bytes
(20_memory.md R75 item 3). -/
theorem earlyResult_counted {s : State} {j : Nat} (hj : j < s.regs.progress.toNat) :
    earlyResult (pixelAddr s.snap j) s = none := by
  cases h : earlyResult (pixelAddr s.snap j) s with
  | none => rfl
  | some q =>
    obtain ⟨i, _, _, hp, _, ha, _⟩ := earlyResult_eq_some h
    rw [pixelAddr_eq, pixelAddr_eq] at ha
    omega

/-- What a host read may return (20_memory.md R71, R75; 70_reset_and_hazards.md R243). -/
theorem mem_visibleQuads {a : Nat} {s : State} {q : Quad} : q ∈ visibleQuads a s ↔
    q = loadQuad s.mem a ∨ (∃ v ∈ s.stale, v.addr = a ∧ q = v.old) ∨ earlyResult a s = some q := by
  simp [visibleQuads, and_assoc, eq_comm]

/-! ## Steps of the whole machine -/

/-- A step of the host elsewhere than on the port completes exactly while reset is not held
(70_reset_and_hazards.md R235). -/
theorem takeHostStep_eq_next {s t u : State} :
    takeHostStep t s = .next u ↔ s.inReset = false ∧ u = t := by
  unfold takeHostStep
  cases s.inReset <;> simp [eq_comm]

/-- While reset is held it is a fault by name (70_reset_and_hazards.md R235). -/
theorem takeHostStep_held {s : State} (t : State) (h : s.inReset = true) :
    takeHostStep t s = .fault .hostStepDuringReset := if_pos h

/-- A memory write completes unless it is the host's while reset is held, and then it is `agentWrite`. -/
theorem next_memWrite {agent : BusAgent} {i : BitVec 30} {lanes : BitVec 4} {q : Quad} {s u : State} :
    takeInput (.memWrite agent i lanes q) s = .next u ↔
      (agent = .host → s.inReset = false) ∧ u = agentWrite i lanes q s := by
  cases agent with
  | host => exact takeHostStep_eq_next.trans (and_congr_left' ⟨fun h _ => h, fun h => h rfl⟩)
  | other => exact ⟨fun h => ⟨nofun, (Host.Outcome.next.inj h).symm⟩, fun h => h.2 ▸ rfl⟩

/-- With no input left the step is the engine's turn. -/
theorem step_nil {s : State} (h : s.inputs = []) : step s = engineTurn s := by
  unfold step nextStep; rw [h]

/-- Otherwise it takes the first input. -/
theorem step_cons {s : State} {i : Input} {rest : List Input} (h : s.inputs = i :: rest) :
    step s = takeInput i { s with inputs := rest } := by
  unfold step nextStep; rw [h]

/-- An engine's turn that answers a next state is a `PIXEL_STEP` of a busy engine or nothing. -/
theorem engineTurn_cases {s t : State} (h : engineTurn s = .next t) :
    (s.regs.busy = true ∧ pixelStep s = .next t) ∨ (s.regs.busy = false ∧ t = s) := by
  unfold engineTurn at h
  split_ifs at h with hb
  · exact .inl ⟨hb, h⟩
  · cases h; exact .inr ⟨by simpa using hb, rfl⟩

/-- What a port input can do: it is answered with a register read, or it writes a register, submits a
command word, or is invalid. -/
theorem runEncoded_cases (e : Encoded) (s : State) :
    (∃ reg, decode e = .ok (.mmioRd reg) ∧ runEncoded e s = .next
      (respond (.okay (some (readReg s.regs reg))) (orderRead reg s))) ∨
    (∃ reg w, decode e = .ok (.mmioWr reg w) ∧ reg ≠ .cmd ∧ runEncoded e s = .next
      (respond (.okay none) { s with regs := writeReg s.regs reg w })) ∨
    (∃ w, (decode e = .ok (.mmioWr .cmd w) ∨ e = .command w) ∧ runEncoded e s = .next
      (respond (.okay none) (command w s))) ∨
    (∃ write, decode e = .error (.invalidTransaction write) ∧ runEncoded e s = .next
      (invalidTransaction write s)) := by
  cases e with
  | command w =>
    refine .inr (.inr (.inl ⟨w, .inr rfl, ?_⟩))
    cases hd : decodeCommand w with
    | ok i =>
      have : runEncoded (.command w) s = exec i s := by simp [runEncoded, decode, hd]
      rw [this, command_of_decode hd]
    | error x =>
      have hx : x = .illegalCommand w := by
        unfold decodeCommand at hd; split_ifs at hd; cases hd; rfl
      subst hx
      have : runEncoded (.command w) s = .next (illegalCommand w s) := by simp [runEncoded, decode, hd]
      rw [this]
      simp only [illegalCommand, command, submit, idleCommand, hd]
  | transaction header d =>
    by_cases hv : headerValid header = true
    · by_cases hw : headerWrite header = true
      · have hd : decode (.transaction header d) =
            .ok (.mmioWr (Reg.ofIndex ((headerAddr header).extractLsb' 2 4)) d) := by
          simp [decode, decodeTransaction, hv, hw]
        have hr : runEncoded (.transaction header d) s =
            exec (.mmioWr (Reg.ofIndex ((headerAddr header).extractLsb' 2 4)) d) s := by
          simp only [runEncoded, hd]
        by_cases hc : Reg.ofIndex ((headerAddr header).extractLsb' 2 4) = .cmd
        · rw [hc] at hd
          refine .inr (.inr (.inl ⟨d, .inl hd, ?_⟩))
          simp only [runEncoded, hd]; rfl
        · refine .inr (.inl ⟨_, d, hd, hc, ?_⟩)
          rw [hr]
          generalize Reg.ofIndex ((headerAddr header).extractLsb' 2 4) = reg at hc
          cases reg <;> first | rfl | exact absurd rfl hc
      · have hd : decode (.transaction header d) =
            .ok (.mmioRd (Reg.ofIndex ((headerAddr header).extractLsb' 2 4))) := by
          simp [decode, decodeTransaction, hv, hw]
        exact .inl ⟨_, hd, by simp only [runEncoded, hd]; rfl⟩
    · have hd : decode (.transaction header d) = .error (.invalidTransaction (headerWrite header)) := by
        simp [decode, decodeTransaction, hv]
      exact .inr (.inr (.inr ⟨_, hd, by simp only [runEncoded, hd]⟩))

/-- Everything a step that answers a next state can be: the engine wrote a pixel, stopped on a bus error or
had nothing to do; the port was answered; an agent wrote memory, the host read it or took the interrupt; or
reset was asserted or released. -/
theorem step_cases {s t : State} (h : step s = .next t) :
    ∃ rest, (s.inputs = rest ∧ rest = [] ∨ ∃ i, s.inputs = i :: rest) ∧
      let u : State := { s with inputs := rest }
      ((∃ q, s.engineActs ∧ s.regs.busy = true ∧ validOperation s = true ∧
          ordinaryExtents s.platform s.snap = true ∧
          pixelBytes s.platform s.mem s.snap s.regs.progress.toNat = some q ∧ t = writePixel q u) ∨
        (s.engineActs ∧ s.regs.busy = true ∧ validOperation s = true ∧
          ordinaryExtents s.platform s.snap = true ∧
          pixelBytes s.platform s.mem s.snap s.regs.progress.toNat = none ∧ t = stopBus u) ∨
        (s.engineActs ∧ s.regs.busy = false ∧ t = u) ∨
        (∃ e, s.inputs = .port e :: rest ∧ s.inReset = false ∧ runEncoded e u = .next t) ∨
        (∃ agent i lanes q, s.inputs = .memWrite agent i lanes q :: rest ∧
          (agent = .host → s.inReset = false) ∧ t = agentWrite i lanes q u) ∨
        (∃ i, s.inputs = .memRead i :: rest ∧ s.inReset = false ∧ t = hostRead i u) ∨
        (s.inputs = .irqTaken :: rest ∧ s.inReset = false ∧ t = takeInterrupt u) ∨
        (s.inputs = .resetAssert :: rest ∧ t = assertReset u) ∨
        (s.inputs = .resetRelease :: rest ∧ t = releaseReset u)) := by
  have engine : s.engineActs → ∀ rest, engineTurn { s with inputs := rest } = .next t →
      (∃ q, s.engineActs ∧ s.regs.busy = true ∧ validOperation s = true ∧
        ordinaryExtents s.platform s.snap = true ∧
        pixelBytes s.platform s.mem s.snap s.regs.progress.toNat = some q ∧
        t = writePixel q { s with inputs := rest }) ∨
      (s.engineActs ∧ s.regs.busy = true ∧ validOperation s = true ∧
        ordinaryExtents s.platform s.snap = true ∧
        pixelBytes s.platform s.mem s.snap s.regs.progress.toNat = none ∧
        t = stopBus { s with inputs := rest }) ∨
      (s.engineActs ∧ s.regs.busy = false ∧ t = { s with inputs := rest }) := by
    intro ha rest he
    rcases engineTurn_cases he with ⟨hb, hp⟩ | ⟨hb, rfl⟩
    · obtain ⟨hv, ho, ⟨q, hq, ht⟩ | ⟨hn, ht⟩⟩ := pixelStep_cases hp
      · exact .inl ⟨q, ha, hb, hv, ho, hq, ht⟩
      · exact .inr (.inl ⟨ha, hb, hv, ho, hn, ht⟩)
    · exact .inr (.inr ⟨ha, hb, rfl⟩)
  cases hi : s.inputs with
  | nil =>
    rw [step_nil hi] at h
    have h' : engineTurn { s with inputs := [] } = .next t := by rw [← hi]; exact h
    refine ⟨[], .inl ⟨rfl, rfl⟩, ?_⟩
    rcases engine (.inl hi) [] h' with h | h | h
    · exact .inl h
    · exact .inr (.inl h)
    · exact .inr (.inr (.inl h))
  | cons i rest =>
    rw [step_cons hi] at h
    refine ⟨rest, .inr ⟨i, rfl⟩, ?_⟩
    cases i with
    | port e =>
      simp only [takeInput, takePort] at h
      split_ifs at h with hr
      exact .inr (.inr (.inr (.inl ⟨e, rfl, by simpa using hr, h⟩)))
    | engineTurn =>
      rcases engine (.inr ⟨rest, hi⟩) rest h with h | h | h
      · exact .inl h
      · exact .inr (.inl h)
      · exact .inr (.inr (.inl h))
    | memWrite agent i lanes q =>
      obtain ⟨hr, rfl⟩ := next_memWrite.1 h
      exact .inr (.inr (.inr (.inr (.inl ⟨agent, i, lanes, q, rfl, hr, rfl⟩))))
    | memRead i =>
      obtain ⟨hr, rfl⟩ := takeHostStep_eq_next.1 h
      exact .inr (.inr (.inr (.inr (.inr (.inl ⟨i, rfl, hr, rfl⟩)))))
    | irqTaken =>
      obtain ⟨hr, rfl⟩ := takeHostStep_eq_next.1 h
      exact .inr (.inr (.inr (.inr (.inr (.inr (.inl ⟨rfl, hr, rfl⟩))))))
    | resetAssert =>
      simp only [takeInput] at h; cases h
      exact .inr (.inr (.inr (.inr (.inr (.inr (.inr (.inl ⟨rfl, rfl⟩)))))))
    | resetRelease =>
      simp only [takeInput] at h; cases h
      exact .inr (.inr (.inr (.inr (.inr (.inr (.inr (.inr ⟨rfl, rfl⟩)))))))

end Sys2Proof.Machine
end

