-- ==== Sys2Proof/Laws/PerInstr.lean ====
section
/-! SUPPORT. One lemma per instruction: an instruction's encoding carries the match bits of its own row of
spec/opcode_table.json and of no other. -/

namespace Sys2Proof.Laws.TableRow

/-- The row of spec/opcode_table.json that an encoded input matches: a transaction by mask 0x1C3, a command
word by mask 0xFFFFFFFF (30_encoding.md R92, R94). -/
def row : Encoded → Option Nat
  | .transaction h _ =>
    if h &&& 0x1C3#9 = 0x080#9 then some 0 else if h &&& 0x1C3#9 = 0x180#9 then some 1 else none
  | .command w => if w = 0#32 then some 2 else if w = 1#32 then some 3 else if w = 2#32 then some 4 else none

/-- The row of an instruction's own mnemonic. -/
def ownRow : Instr → Nat
  | .mmioRd _ => 0
  | .mmioWr _ _ => 1
  | .nop => 2
  | .resize => 3
  | .clear => 4

/-- The encoding of a well-formed instruction matches its own row. -/
def Statement (i : Instr) : Prop := i.wf = true → row (encode i) = some (ownRow i)

/-- Every register's header has the fixed bits of its row. -/
theorem encodeHeader_fixed (write : Bool) (reg : Reg) :
    encodeHeader write reg &&& 0x1C3#9 = if write then 0x180#9 else 0x080#9 := by
  have h : ∀ (b : Bool) (k : BitVec 4),
      (BitVec.ofBool b ++ 2#2 ++ (k ++ 0#2)) &&& 0x1C3#9 = if b then 0x180#9 else 0x080#9 := by decide
  exact h write reg.index

theorem mmioRd (reg : Reg) : Statement (.mmioRd reg) := by
  intro _; simp [row, encode, encodeHeader_fixed, ownRow]

theorem mmioWr (reg : Reg) (w : Word) : Statement (.mmioWr reg w) := by
  intro _; simp [row, encode, encodeHeader_fixed, ownRow]

theorem nop : Statement .nop := by intro _; rfl

theorem resize : Statement .resize := by intro _; rfl

theorem clear : Statement .clear := by intro _; rfl

end Sys2Proof.Laws.TableRow
end

