-- ==== Sys2Proof/Laws/Steps.lean ====
section
/-! SUPPORT. What any step can do to the registers and the snapshot, said once (10_state.md R22 to R37,
41_commands.md R140 to R146, 42_resize_datapath.md R170). -/

namespace Sys2Proof.Machine

/-- What a submitted command word can do to the registers and the snapshot (41_commands.md R140 to R146):
nothing, set `IGN`, start an operation, end at once, acknowledge, or report an illegal word. -/
theorem command_regs_cases (w : Word) (s : State) :
    ((command w s).snap = s.snap ∧ (command w s).regs = s.regs) ∨
    (s.regs.busy = true ∧ w ≠ 0#32 ∧ (command w s).snap = s.snap ∧
      (command w s).regs = { s.regs with ign := true }) ∨
    (s.regs.busy = false ∧ w = 1#32 ∧ (command w s).snap = takeSnapshot s.regs ∧
      ((validate (takeSnapshot s.regs) = .accepted ∧ (command w s).regs =
          { s.regs with progress := 0, done := false, err := .none, busy := true }) ∨
        ∃ code, ((validate (takeSnapshot s.regs) = .empty ∧ code = .none) ∨
            validate (takeSnapshot s.regs) = .rejected code) ∧ (command w s).regs =
          { s.regs with progress := 0, done := true, err := code, busy := false })) ∨
    (s.regs.busy = false ∧ w = 2#32 ∧ (command w s).snap = s.snap ∧
      (command w s).regs = { s.regs with done := false, err := .none, ign := false }) ∨
    (s.regs.busy = false ∧ (w ≠ 0#32 ∧ w ≠ 1#32 ∧ w ≠ 2#32) ∧ (command w s).snap = s.snap ∧
      (command w s).regs = { s.regs with busy := false, done := true, err := .illegalCmd }) := by
  cases hb : s.regs.busy with
  | true =>
    unfold command
    rw [submit_busy _ _ hb]
    unfold discardCommand
    split_ifs with h0
    · exact .inr (.inl ⟨rfl, h0, rfl, rfl⟩)
    · exact .inl ⟨rfl, rfl⟩
  | false =>
    unfold command
    rw [submit_idle _ _ hb, idleCommand_eq]
    split_ifs with h0 h1 h2
    · exact .inl ⟨rfl, rfl⟩
    · refine .inr (.inr (.inl ⟨rfl, h1, ?_⟩))
      rcases startResize_cases s with ⟨hv, h⟩ | ⟨hv, h⟩ | ⟨code, hv, h⟩ <;> rw [h]
      · exact ⟨rfl, .inl ⟨hv, rfl⟩⟩
      · exact ⟨rfl, .inr ⟨.none, .inl ⟨hv, rfl⟩, rfl⟩⟩
      · exact ⟨rfl, .inr ⟨code, .inr hv, rfl⟩⟩
    · exact .inr (.inr (.inr (.inl ⟨rfl, h2, rfl, by simp [hb]⟩)))
    · exact .inr (.inr (.inr (.inr ⟨rfl, ⟨h0, h1, h2⟩, rfl, rfl⟩)))

/-- What any step can do to the registers and the snapshot, by what took the step: nothing; a register
write; a command word; the engine's pixel, last pixel or bus error; or reset. -/
theorem step_regs_cases {s t : State} (h : step s = .next t) :
    (t.snap = s.snap ∧ t.regs = s.regs) ∨
    (∃ reg w, s.inReset = false ∧ s.writesReg reg w ∧ reg ≠ .cmd ∧ t.snap = s.snap ∧
      t.regs = writeReg s.regs reg w) ∨
    (∃ w, s.inReset = false ∧ s.submits w ∧ t.snap = (command w s).snap ∧
      t.regs = (command w s).regs) ∨
    (∃ q, s.engineActs ∧ s.regs.busy = true ∧ validOperation s = true ∧ t.snap = s.snap ∧
      pixelBytes s.platform s.mem s.snap s.regs.progress.toNat = some q ∧
      t.mem = storeLanes s.mem (pixelAddr s.snap s.regs.progress.toNat) (toLanes (bytesToWrite q s)) ∧
      ((s.regs.progress.toNat + 1 ≠ pixelCount s.snap ∧
          t.regs = { s.regs with progress := s.regs.progress + 1 }) ∨
        (s.regs.progress.toNat + 1 = pixelCount s.snap ∧ t.regs = { s.regs with
          progress := s.regs.progress + 1, busy := false, done := true, err := .none }))) ∨
    (s.engineActs ∧ s.regs.busy = true ∧ validOperation s = true ∧ t.snap = s.snap ∧
      t.regs = { s.regs with busy := false, done := true, err := .bus }) ∨
    (s.meetsReset ∧ t.regs = Regs.reset) := by
  obtain ⟨rest, -, hc⟩ := step_cases h
  dsimp only at hc
  have same : ∀ u : State, u.snap = s.snap → u.regs = s.regs → t = u → t.snap = s.snap ∧ t.regs = s.regs :=
    fun u hs hr ht => ht ▸ ⟨hs, hr⟩
  rcases hc with ⟨q, ha, hb, hv, -, hq, rfl⟩ | ⟨ha, hb, hv, -, -, rfl⟩ | ⟨-, -, ht⟩ | ⟨e, he, hi, hx⟩ |
    ⟨_, _, _, _, -, -, ht⟩ | ⟨_, -, -, ht⟩ | ⟨-, -, ht⟩ | ⟨he, rfl⟩ | ⟨-, ht⟩
  · rcases writePixel_cases q { s with inputs := rest } with ⟨-, hl, hw⟩ | ⟨-, hl, hw⟩ | ⟨-, hw⟩ <;> rw [hw]
    · exact .inr (.inr (.inr (.inl ⟨q, ha, hb, hv, rfl, hq, rfl, .inl ⟨hl, rfl⟩⟩)))
    · exact .inr (.inr (.inr (.inl ⟨q, ha, hb, hv, rfl, hq, rfl, .inr ⟨hl, rfl⟩⟩)))
    · exact .inr (.inr (.inr (.inr (.inl ⟨ha, hb, hv, rfl, rfl⟩))))
  · exact .inr (.inr (.inr (.inr (.inl ⟨ha, hb, hv, rfl, rfl⟩))))
  · exact .inl (same { s with inputs := rest } rfl rfl ht)
  · rcases runEncoded_cases e { s with inputs := rest } with
      ⟨reg, -, hr⟩ | ⟨reg, w, hd, hne, hr⟩ | ⟨w, hd, hr⟩ | ⟨_, -, hr⟩ <;> rw [hr] at hx <;> cases hx
    · exact .inl (by simp)
    · exact .inr (.inl ⟨reg, w, hi, ⟨e, rest, he, hd⟩, hne, rfl, rfl⟩)
    · refine .inr (.inr (.inl ⟨w, hi, ⟨e, rest, he, hd.symm⟩, ?_⟩))
      have hf : ∀ u : State, u.regs = s.regs → u.snap = s.snap →
          (command w u).snap = (command w s).snap ∧ (command w u).regs = (command w s).regs := by
        intro u hr hs
        unfold command submit discardCommand
        rw [idleCommand_eq, idleCommand_eq, hr]
        split_ifs <;> simp [illegalWord, startResize, takeResize, hr, hs]
        split <;> simp
      exact hf _ rfl rfl
    · exact .inl ⟨rfl, rfl⟩
  · exact .inl (same _ (by simp) (by simp) ht)
  · exact .inl (same _ (by simp) (by simp) ht)
  · exact .inl (same _ (by simp) (by simp) ht)
  · exact .inr (.inr (.inr (.inr (.inr ⟨⟨rest, he⟩, rfl⟩))))
  · exact .inl (same _ (by simp) (by simp) ht)

end Sys2Proof.Machine
end

