-- ==== Sys2Proof/Tests/Slice0.lean ====
section
/-! SUPPORT. Tests on fixed values. Expected results come from the spec's tables and vectors
(30_encoding.md R92 to R95, 95_test_vectors.md), never from the model. The last section gives, for each
obligation with hypotheses, a concrete state and operands that meet them. -/

namespace Sys2Proof.Tests

open Sys2Proof Sys2Proof.Machine

/-! ## Small states -/

/-- List bytes from an address up. -/
def bytesAt (a : Nat) : List Byte → Memory
  | [] => []
  | b :: rest => Memory.write (bytesAt (a + 1) rest) a b

/-- The configuration of vectors E1 to E20 (95_test_vectors.md section L2.3). -/
def base : Regs := { Regs.reset with
  srcBase := 0x1000
  srcStride := 8
  srcSize := 0x00020002
  dstBase := 0x2000
  dstSize := 0x00020002 }

/-- Its snapshot. -/
def image : Snapshot := takeSnapshot base

/-- The source of program P5 (95_test_vectors.md): `0A 14 1E FF, 28 32 3C FF; 46 50 5A FF, 64 6E 78 FF`. -/
def source : Memory := bytesAt 0x1000 [0x0A, 0x14, 0x1E, 0xFF, 0x28, 0x32, 0x3C, 0xFF,
  0x46, 0x50, 0x5A, 0xFF, 0x64, 0x6E, 0x78, 0xFF]

/-- Idle, configured, with the source in memory and a list of inputs. -/
def idle (inputs : List Input) : State := { State.reset with regs := base, mem := source, inputs := inputs }

/-- An idle machine with something to acknowledge. -/
def reported (inputs : List Input) : State :=
  { idle inputs with regs := { base with done := true, ign := true, irqEn := true } }

/-- Busy with `n` pixels written. -/
def busyAt (n : Nat) (inputs : List Input) : State := { idle inputs with
  regs := { base with busy := true, progress := BitVec.ofNat 32 n }
  snap := image }

/-- Program P5's platform: a write to pixel 2 fails. -/
def holeInDestination : Platform := { unbacked := [⟨0x2008, 0x2010⟩], unordinary := [] }

/-- A next state satisfies a test. -/
def nextIs (o : Host.Outcome State Fault Refusal) (p : State → Bool) : Bool :=
  match o with
  | .next t => p t
  | .fault _ => false
  | .refused _ => false

/-! ## Well-formedness: each check refuses an ill-formed term -/

theorem test_wf_refuses_read_of_unreserved_index : Instr.wf (.mmioRd (.reserved 10)) = false := by decide

theorem test_wf_refuses_write_of_unreserved_index : Instr.wf (.mmioWr (.reserved 0) 0) = false := by decide

theorem test_wf_accepts_reserved_offsets :
    Instr.wf (.mmioRd (.reserved 11)) = true ∧ Instr.wf (.mmioWr (.reserved 15) 1) = true := by decide

/-! ## Decoding, from words written out by 30_encoding.md R92 and R93 -/

/-- 32-bit read of offset 0x04: PWRITE 0, PSIZE 2, PADDR 000100, so 0 10 000100 = 0x084 (program P4). -/
theorem test_decode_read_status : decode (.transaction 0b010000100#9 0) = .ok (.mmioRd .status) := by decide

/-- 32-bit reads of 0x24, 0x28 and the reserved 0x30: 0x0A4, 0x0A8 and 0x0B0 (program P4). -/
theorem test_decode_reads : decode (.transaction 0b010100100#9 0) = .ok (.mmioRd .progress) ∧
    decode (.transaction 0b010101000#9 0) = .ok (.mmioRd .id) ∧
    decode (.transaction 0b010110000#9 0) = .ok (.mmioRd (.reserved 12)) := by decide

/-- 32-bit writes of 0x0C, 0x10, 0x14, 0x18, 0x1C: 0x18C to 0x19C (program P5). -/
theorem test_decode_writes :
    decode (.transaction 0b110001100#9 0x1000) = .ok (.mmioWr .srcBase 0x1000) ∧
    decode (.transaction 0b110010000#9 8) = .ok (.mmioWr .srcStride 8) ∧
    decode (.transaction 0b110010100#9 0x20002) = .ok (.mmioWr .srcSize 0x20002) ∧
    decode (.transaction 0b110011000#9 0x2000) = .ok (.mmioWr .dstBase 0x2000) ∧
    decode (.transaction 0b110011100#9 0x20002) = .ok (.mmioWr .dstSize 0x20002) := by decide

/-- Writes of 0x00, 0x08 and 0x20, the first being a command's transaction (30_encoding.md R93). -/
theorem test_decode_writes_cmd_ctrl_format :
    decode (.transaction 0b110000000#9 1) = .ok (.mmioWr .cmd 1) ∧
    decode (.transaction 0b110001000#9 1) = .ok (.mmioWr .ctrl 1) ∧
    decode (.transaction 0b110100000#9 2) = .ok (.mmioWr .format 2) := by decide

/-- A read of 0x06 and an 8-bit read of 0x04 (program P4), a 16-bit and a PSIZE = 3 write. -/
theorem test_decode_invalid :
    decode (.transaction 0b010000110#9 0) = .error (.invalidTransaction false) ∧
    decode (.transaction 0b000000100#9 0) = .error (.invalidTransaction false) ∧
    decode (.transaction 0b101000000#9 1) = .error (.invalidTransaction true) ∧
    decode (.transaction 0b111000000#9 1) = .error (.invalidTransaction true) := by decide

/-- Command words (30_encoding.md R92); 0x10 is illegal (program P4), and bit 31 is not ignored. -/
theorem test_decode_commands : decode (.command 0) = .ok .nop ∧ decode (.command 1) = .ok .resize ∧
    decode (.command 2) = .ok .clear ∧ decode (.command 0x10) = .error (.illegalCommand 0x10) ∧
    decode (.command 0x80000001) = .error (.illegalCommand 0x80000001) := by decide

/-- The opcode table's rows: 16-bit headers, 32-bit command words, and a header with its data. -/
theorem test_table_words : decodeTableWord 16 0x080 = some (.mmioRd .cmd) ∧
    decodeTableWord 16 0x180 = some (.mmioWr .cmd 0) ∧ decodeTableWord 32 2 = some .clear ∧
    decodeTableWord 48 0x1234018C = some (.mmioWr .srcBase 0x1234) ∧ decodeTableWord 16 0x200 = none := by
  decide

theorem test_table_word_runs_first :
    nextIs (step (State.reset.withFetchWord 16 0x0A8)) (fun t => t.response == .okay (some 0x42524531)) =
      true := by decide

/-! ## Registers -/

/-- `STATUS` reads 0x72 after a bus error (program P5). -/
theorem test_read_status : nextIs (exec (.mmioRd .status)
    { State.reset with regs := { base with done := true, err := .bus } })
    (fun t => t.response == .okay (some 0x72)) = true := by decide

/-- A write of `FORMAT` keeps bits 1..0 (10_state.md R27). -/
theorem test_write_format : nextIs (exec (.mmioWr .format 0xFFFFFFFE) State.reset)
    (fun t => t.regs == { Regs.reset with fmt := 2 }) = true := by decide

/-- A write of `CTRL` keeps bit 0 (10_state.md R28). -/
theorem test_write_ctrl : nextIs (exec (.mmioWr .ctrl 0xFFFFFFFF) State.reset)
    (fun t => t.regs == { Regs.reset with irqEn := true }) = true := by decide

/-- An 8-bit read answers SLVERR with 0 (program P4). -/
theorem test_invalid_read : nextIs (runEncoded (.transaction 0x004 0) (reported []))
    (fun t => t.response == .slverr (some 0) && t.regs == (reported []).regs) = true := by decide

/-! ## Commands -/

theorem test_nop_while_busy : nextIs (exec .nop (busyAt 1 [])) (fun t => !t.regs.ign) = true := by decide

theorem test_clear_while_idle : nextIs (exec .clear (reported []))
    (fun t => statusWord t.regs == 0 && !irq t) = true := by decide

theorem test_clear_while_busy : nextIs (exec .clear (busyAt 1 []))
    (fun t => statusWord t.regs == 0x05) = true := by decide

theorem test_resize_accepted : nextIs (exec .resize (reported []))
    (fun t => statusWord t.regs == 0x05 && t.snap == image) = true := by decide

/-- Program P4: `cmd.word 0x10` leaves `STATUS` 0x82. -/
theorem test_illegal_word : nextIs (runEncoded (.command 0x10) (idle []))
    (fun t => statusWord t.regs == 0x82) = true := by decide

/-- Vectors E1, E2, E3, E4, E5, E6, E7 (95_test_vectors.md section L2.3). -/
theorem test_validation_1 : [{ image with fmt := 3 }, { image with fmt := 3, dstW := 0 },
      { image with dstH := 0, srcW := 0, srcH := 0, srcStride := 0 }, { image with srcW := 0 },
      { image with srcStride := 4 }, { image with srcStride := 6 },
      { image with srcStride := 10 }].map validate =
    [.rejected .format, .rejected .format, .empty, .rejected .emptySrc, .rejected .stride,
      .rejected .stride, .rejected .align] := by decide

/-- Vectors E8 to E13. -/
theorem test_validation_2 : [{ image with srcBase := 0x1002 }, { image with dstBase := 0x2001 },
      { image with dstBase := 0xFFFFFFF0, dstH := 3 }, { image with dstBase := 0xFFFFFFF0 },
      { image with srcBase := 0xFFFFFFF8 },
      { image with srcStride := 16, dstBase := 0x1008, dstW := 1, dstH := 1 }].map validate =
    [.rejected .align, .rejected .align, .rejected .range, .accepted, .rejected .range,
      .rejected .overlap] := by decide

/-- Vectors E14 to E19. -/
theorem test_validation_3 : [{ image with dstBase := 0x1010 },
      { image with srcBase := 0x1010, dstBase := 0x1000 }, { image with dstBase := 0x100C },
      { image with srcH := 1, srcStride := 0 },
      { image with srcW := 0, srcStride := 0, dstBase := 0x1000 },
      { image with srcBase := 0x1001, srcStride := 7 }].map validate =
    [.accepted, .accepted, .rejected .overlap, .rejected .stride, .rejected .emptySrc,
      .rejected .stride] := by decide

/-! ## Datapath -/

/-- Axis rows of 95_test_vectors.md section L2.1. -/
theorem test_axis_table : axis 0 4 2 = ⟨0, 0, 8, 1⟩ ∧ axis 1 4 2 = ⟨0, 2, 8, 1⟩ ∧
    axis 2 4 2 = ⟨0, 6, 8, 1⟩ ∧ axis 3 4 2 = ⟨1, 2, 8, 0⟩ ∧ axis 2 5 3 = ⟨1, 0, 10, 1⟩ ∧
    axis 4 5 3 = ⟨2, 2, 10, 0⟩ ∧ axis 2 3 1 = ⟨0, 2, 6, 0⟩ ∧ axis 0 1 4 = ⟨1, 1, 2, 1⟩ := by decide

/-- Its extreme rows. -/
theorem test_axis_extremes : axis 0 65535 1 = ⟨0, 0, 131070, 0⟩ ∧
    axis 65534 65535 1 = ⟨0, 65534, 131070, 0⟩ ∧ axis 0 1 65535 = ⟨32767, 0, 2, 1⟩ ∧
    axis 65534 65535 65535 = ⟨65534, 0, 131070, 0⟩ := by decide

/-- Vector V1, worked pixel (1,1). -/
theorem test_V1_pixel : pixelBytes .allOrdinary (bytesAt 0x1000 [0xFF, 0, 0, 0xFF, 0, 0xFF, 0, 0xFF,
    0, 0, 0xFF, 0xFF, 0xFF, 0xFF, 0xFF, 0xFF]) { image with dstW := 4, dstH := 4 } 5 =
    some ⟨0x9F, 0x3F, 0x3F, 0xFF⟩ := by decide

/-- Vector V6, as ARGB32 and as RGBA32. -/
theorem test_V6 : [1, 0].map (fun f => pixelBytes .allOrdinary
      (bytesAt 0x1000 [0xFF, 0x0A, 0x14, 0x1E, 0, 0x28, 0x32, 0x3C])
      { image with srcH := 1, dstW := 1, dstH := 1, fmt := f } 0) =
    [some ⟨0x00, 0x19, 0x23, 0x2D⟩, some ⟨0x7F, 0x19, 0x23, 0x1E⟩] := by decide

/-- Vector V8, pixels (1,1), (2,1) and (1,2). -/
theorem test_V8 : [4, 5, 7].map (pixelBytes .allOrdinary (bytesAt 0x1000 [0, 0, 0, 0xC8, 0x1E, 0x3C, 0x5A,
      0x64, 0x5A, 0x3C, 0x1E, 0x32, 0xFF, 0xFF, 0xFF, 1])
      { image with dstW := 3, dstH := 3, fmt := 2 }) =
    [some ⟨0x5D, 0x5D, 0x5D, 0xC8⟩, some ⟨0x8E, 0x9D, 0xAC, 0x64⟩, some ⟨0xAC, 0x9D, 0x8E, 0x32⟩] := by
  decide

/-- Vector V13: only the diagonal neighbour is transparent. -/
theorem test_V13 : pixelBytes .allOrdinary (bytesAt 0x1000 [0x64, 0x64, 0x64, 0xFF, 0x64, 0x64, 0x64, 0xFF,
    0x64, 0x64, 0x64, 0xFF, 0, 0, 0, 0]) { image with dstW := 1, dstH := 1 } 0 =
    some ⟨0x4B, 0x4B, 0x4B, 0⟩ := by decide

/-- Program P5: pixel 1 is source pixel 1. -/
theorem test_pixel_step : nextIs (step { busyAt 1 [] with platform := holeInDestination })
    (fun t => loadQuad t.mem 0x2004 == ⟨0x28, 0x32, 0x3C, 0xFF⟩ && statusWord t.regs == 0x01 &&
      t.regs.progress == 2) = true := by decide

/-- Program P5: the write of pixel 2 ends the operation with BUS and `PROGRESS = 2`. -/
theorem test_write_bus_error : nextIs (step { busyAt 2 [] with platform := holeInDestination })
    (fun t => statusWord t.regs == 0x72 && t.regs.progress == 2) = true := by decide

/-! ## What meets the obligations' hypotheses -/

theorem witness_DecodeAndEncodeAgree : Instr.wf (.mmioWr (.reserved 11) 5) = true ∧
    decode (.transaction 0x1AC#9 5) = .ok (.mmioWr (.reserved 11) 5) := by decide

theorem witness_TransactionDecode :
    ((0x0BC#9).extractLsb' 6 2 = 2#2 ∧ (0x0BC#9).extractLsb' 0 2 = 0#2 ∧ (0x0BC#9).getLsbD 8 = false) ∧
    ((0x180#9).extractLsb' 6 2 = 2#2 ∧ (0x180#9).extractLsb' 0 2 = 0#2 ∧ (0x180#9).getLsbD 8 = true) ∧
    (0x040#9).extractLsb' 6 2 ≠ 2#2 ∧ (0x1C0#9).extractLsb' 6 2 ≠ 2#2 ∧
    (0x081#9).extractLsb' 0 2 ≠ 0#2 := by decide

theorem witness_CommandWordDecode : 3#32 ≠ 0#32 ∧ 3#32 ≠ 1#32 ∧ 3#32 ≠ 2#32 := by decide

theorem witness_StepRunsDecodedInstruction :
    (idle [.port (.command 1)]).inputs = .port (.command 1) :: [] ∧
    (idle [.port (.command 1)]).inReset = false ∧ decode (.command 1) = .ok .resize := by decide

theorem witness_PlacedWordRunsNext : decodeTableWord 32 0 = some .nop ∧
    decodeTableWord 48 0xFFFFFFFF0188 = some (.mmioWr .ctrl 0xFFFFFFFF) := by decide

theorem witness_IdleMachineWaits : (idle []).inputs = [] ∧ (idle []).regs.busy = false := by decide

/-- Reset held, and a transaction all the same. -/
def held : State := { State.reset with inReset := true, inputs := [.port (.transaction 0x084 0)] }

theorem witness_TransactionDuringResetStops :
    held.inputs = .port (.transaction 0x084 0) :: [] ∧ held.inReset = true := by decide

/-- Reset held, and another input. -/
def heldWith (i : Input) : State := { held with inputs := [i] }

/-- Each step of the host off the port, while reset is held. -/
theorem witness_TransactionDuringResetStops_offPort :
    (heldWith (.memRead 0)).inReset = true ∧ (heldWith (.memRead 0)).hostActsOffPort ∧
    (heldWith .irqTaken).hostActsOffPort ∧
    (heldWith (.memWrite .host 0 0b0001 ⟨1, 0, 0, 0⟩)).hostActsOffPort :=
  ⟨rfl, ⟨[], .inr (.inl ⟨0, rfl⟩)⟩, ⟨[], .inr (.inr rfl)⟩, ⟨[], .inl ⟨0, _, _, rfl⟩⟩⟩

/-- No host step while reset is held (70_reset_and_hazards.md R235); another agent's write lands. -/
theorem test_held_host_steps : step (heldWith (.memRead 0)) = .fault .hostStepDuringReset ∧
    step (heldWith (.memWrite .host 0 0b0001 ⟨1, 0, 0, 0⟩)) = .fault .hostStepDuringReset ∧
    step (heldWith .irqTaken) = .fault .hostStepDuringReset ∧
    nextIs (step (heldWith (.memWrite .other 0 0b0001 ⟨1, 0, 0, 0⟩))) (fun t => t.mem.read 0 == 1) = true :=
  ⟨rfl, rfl, rfl, by decide⟩

theorem witness_RegisterReadAnswers : Reg.wf (.reserved 11) = true ∧ Reg.wf (.reserved 15) = true ∧
    Reg.cmd ≠ .status ∧ Reg.cmd ≠ .progress := by decide

theorem witness_RegisterWriteStores : Reg.wf .cmd = true ∧ Reg.format ≠ .cmd ∧ Reg.wf (.reserved 15) = true := by
  decide

theorem witness_ReadBackAfterWrite : Reg.status ≠ .cmd ∧ Reg.reserved 15 ≠ .cmd ∧ Reg.ctrl ≠ .cmd := by
  decide

theorem witness_CommandWhileBusy : (busyAt 0 []).regs.busy = true := by decide

theorem witness_CommandWhileIdle : (idle []).regs.busy = false ∧
    0xFFFFFFFF#32 ≠ 0#32 ∧ 0xFFFFFFFF#32 ≠ 1#32 ∧ 0xFFFFFFFF#32 ≠ 2#32 := by decide

theorem witness_ClearAcknowledges : (reported []).regs.busy = false ∧ (busyAt 3 []).regs.busy = true := by
  decide

theorem witness_ResizeStarts : (reported []).regs.busy = false ∧
    validate (takeSnapshot (reported []).regs) = .accepted := by decide

/-- One snapshot for each outcome of the checks, at its boundary where it has one. -/
theorem witness_ResizeChecksInOrder : validate { image with fmt := 3 } = .rejected .format ∧
    validate { image with dstW := 0 } = .empty ∧ validate { image with srcH := 0 } = .rejected .emptySrc ∧
    validate { image with srcStride := 7 } = .rejected .stride ∧
    validate { image with srcStride := 9 } = .rejected .align ∧
    validate { image with dstBase := 0xFFFFFFF4 } = .rejected .range ∧
    validate { image with dstBase := 0x100C } = .rejected .overlap ∧
    validate { image with dstBase := 0xFFFFFFF0 } = .accepted := by decide

theorem witness_BusyChanges :
    (∃ t, step (idle [.port (.command 1)]) = .next t ∧
      (idle [.port (.command 1)]).regs.busy = false ∧ t.regs.busy = true) ∧
    (∃ t, step (busyAt 3 []) = .next t ∧ (busyAt 3 []).regs.busy = true ∧ t.regs.busy = false) ∧
    ∃ t, step (busyAt 1 [.resetAssert]) = .next t ∧ t.regs.busy = false :=
  ⟨⟨_, rfl, by decide, by decide⟩, ⟨_, rfl, by decide, by decide⟩, ⟨_, rfl, rfl⟩⟩

theorem witness_DoneAndErrChanges_rises :
    (∃ t, step (busyAt 3 []) = .next t ∧ (busyAt 3 []).regs.done = false ∧ t.regs.done = true) ∧
    (∃ t, step { State.reset with inputs := [.port (.command 1)] } = .next t ∧ t.regs.done = true) ∧
    ∃ t, step (idle [.port (.command 3)]) = .next t ∧ (idle []).regs.done = false ∧ t.regs.done = true :=
  ⟨⟨_, rfl, by decide, by decide⟩, ⟨_, rfl, by decide⟩, ⟨_, rfl, by decide, by decide⟩⟩

theorem witness_DoneAndErrChanges_falls :
    (∃ t, step (reported [.port (.command 1)]) = .next t ∧ (reported []).regs.done = true ∧
      t.regs.done = false) ∧
    (∃ t, step (reported [.port (.command 2)]) = .next t ∧ t.regs.done = false) ∧
    ∃ t, step (reported [.resetAssert]) = .next t ∧ t.regs.done = false :=
  ⟨⟨_, rfl, by decide, by decide⟩, ⟨_, rfl, by decide⟩, ⟨_, rfl, rfl⟩⟩

/-- `ERR` changes by a bus error, by an illegal word, by a rejected `RESIZE` and by `CLEAR`. -/
theorem witness_DoneAndErrChanges_err :
    (∃ t, step { busyAt 2 [] with platform := holeInDestination } = .next t ∧
      t.regs.err ≠ (busyAt 2 []).regs.err) ∧
    (∃ t, step (reported [.port (.command 3)]) = .next t ∧ t.regs.err ≠ (reported []).regs.err) ∧
    (∃ t, step { reported [.port (.command 1)] with regs := { base with fmt := 3 } } = .next t ∧
      t.regs.err ≠ base.err) ∧
    ∃ t, step { idle [.port (.command 2)] with regs := { base with done := true, err := .bus } } = .next t ∧
      t.regs.err ≠ .bus :=
  ⟨⟨_, rfl, by decide⟩, ⟨_, rfl, by decide⟩, ⟨_, rfl, by decide⟩, ⟨_, rfl, by decide⟩⟩

theorem witness_IgnChanges :
    (∃ t, step (busyAt 0 [.port (.command 2)]) = .next t ∧ (busyAt 0 []).regs.ign = false ∧
      t.regs.ign = true) ∧
    (∃ t, step (reported [.port (.command 2)]) = .next t ∧ (reported []).regs.ign = true ∧
      t.regs.ign = false) ∧
    ∃ t, step (reported [.resetAssert]) = .next t ∧ t.regs.ign = false :=
  ⟨⟨_, rfl, by decide, by decide⟩, ⟨_, rfl, by decide, by decide⟩, ⟨_, rfl, rfl⟩⟩

theorem witness_ProgressSnapshotAndConfigurationChanges :
    (∃ t, step (busyAt 0 [.port (.transaction 0x188 1)]) = .next t ∧
      t.regs.irqEn ≠ (busyAt 0 []).regs.irqEn) ∧
    (∃ t, step (busyAt 0 [.resetAssert]) = .next t ∧ t.regs.srcBase ≠ (busyAt 0 []).regs.srcBase) ∧
    (∃ t, step (idle [.port (.command 1)]) = .next t ∧ t.snap ≠ (idle []).snap) ∧
    ∃ t, step (busyAt 0 []) = .next t ∧ t.regs.progress ≠ (busyAt 0 []).regs.progress :=
  ⟨⟨_, rfl, by decide⟩, ⟨_, rfl, by decide⟩, ⟨_, rfl, by decide⟩, ⟨_, rfl, by decide⟩⟩

theorem witness_StepKeepsInvariant : (busyAt 3 []).Inv ∧ ∃ t, step (busyAt 3 []) = .next t :=
  ⟨by constructor <;> decide, _, rfl⟩

/-- Busy on a platform whose source has side effects. -/
def onDevice : State := { busyAt 0 [] with platform := { unbacked := [], unordinary := [⟨0x1000, 0x1001⟩] } }

theorem witness_StopsOnlyWhereSpecStops :
    (held.Inv ∧ step held = .fault .transactionDuringReset) ∧
    ((heldWith (.memRead 0)).Inv ∧ step (heldWith (.memRead 0)) = .fault .hostStepDuringReset) ∧
    onDevice.Inv ∧ step onDevice = .refused .nonOrdinaryMemory :=
  ⟨⟨by constructor <;> decide, rfl⟩, ⟨by constructor <;> decide, rfl⟩, by constructor <;> decide, rfl⟩

theorem witness_PlatformIsFixed : ∃ t, step (idle [.memWrite .host 0x400 0b0001 ⟨1, 0, 0, 0⟩]) = .next t := ⟨_, rfl⟩

theorem witness_ByteLanes : 0xFFFFFFFC + 4 ≤ 2 ^ 32 := by decide

theorem witness_NeighboursInsideSource : validate image = .accepted ∧ 3 < pixelCount image ∧
    0 < pixelCount image ∧ (axisX image 0).step = 1 ∧ (axisX image 3).step = 0 := by decide

theorem witness_DestinationPixelsPacked : validate image = .accepted ∧ 1 < image.dstW.toNat ∧
    1 < image.dstH.toNat ∧ (0, 0) ≠ (1, 1) := by decide

theorem witness_AxisIsSourceFormula : 0 < 1 := by decide

theorem witness_AxisStaysInside : 65534 < 65535 ∧ 0 < 65535 ∧ (axis 65534 65535 65535).base = 65535 - 1 ∧
    (axis 0 65535 65535).base < 65535 - 1 := by decide

/-- The largest denominators, at the largest fractions. -/
theorem witness_BlendIsExactMean : 0 < (axis 65534 65535 1).denom ∧
    (axis 65534 65535 1).frac < (axis 65534 65535 1).denom ∧ (axis 65534 65535 1).denom ≤ 131070 := by
  decide

theorem witness_AlphaRule :
    let opaquePixel : Pixel := ⟨1, 2, 3, 0xFF⟩
    let clearPixel : Pixel := ⟨1, 2, 3, 0⟩
    let n : Neighbours := ⟨opaquePixel, opaquePixel, opaquePixel, clearPixel⟩
    let m : Neighbours := ⟨clearPixel, opaquePixel, opaquePixel, opaquePixel⟩
    (n.p10.a = 0 ∨ n.p01.a = 0 ∨ n.p11.a = 0) ∧ m.p10.a ≠ 0 ∧ m.p01.a ≠ 0 ∧ m.p11.a ≠ 0 := by decide

theorem witness_PixelBytesAreTheBlend : Format.ofCode image.fmt = some .rgba32 ∧
    backedQuad .allOrdinary (srcAddr image 0 0) = true ∧
    backedQuad { unbacked := [⟨0x100F, 0x1010⟩], unordinary := [] } (srcAddr image 1 1) = false := by
  decide

theorem witness_IdentityLaw : validate image = .accepted ∧ image.srcW = image.dstW ∧
    image.srcH = image.dstH ∧ 3 < pixelCount image ∧ Format.ofCode image.fmt = some .rgba32 ∧
    ∀ a, srcStart image ≤ a → a < srcEnd image → backed .allOrdinary a = true :=
  ⟨by decide, by decide, by decide, by decide, by decide, fun _ _ _ => rfl⟩

/-- Vector V4: a one-pixel source to 3×2. -/
theorem witness_OnePixelSource :
    let sn : Snapshot := { image with srcW := 1, srcH := 1, dstW := 3 }
    validate sn = .accepted ∧ sn.srcW = 1 ∧ sn.srcH = 1 ∧ 5 < pixelCount sn ∧
      backedQuad .allOrdinary (srcStart sn) = true := by decide

theorem witness_HalvingIsBlockMean :
    let sn : Snapshot := { image with dstW := 1, dstH := 1 }
    0 < sn.dstW.toNat ∧ sn.srcW.toNat = 2 * sn.dstW.toNat ∧ sn.srcH.toNat = 2 * sn.dstH.toNat ∧
      0 < pixelCount sn := by decide

/-- Two memories that differ in the padding of a source with a stride of 16. -/
theorem witness_PaddingDoesNotMatter :
    let sn : Snapshot := { image with srcStride := 16 }
    let other := source.write 0x1008 0x77
    validate sn = .accepted ∧ 3 < pixelCount sn ∧ (source.write 0x1008 0).read 0x1008 ≠ other.read 0x1008 ∧
      ∀ px py k, px < sn.srcW.toNat → py < sn.srcH.toNat → k < 4 →
        (source.write 0x1008 0).read (srcAddr sn px py + k) = other.read (srcAddr sn px py + k) := by
  refine ⟨by decide, by decide, by decide, fun px py k hx hy hk => ?_⟩
  have h : ∀ px < 2, ∀ py < 2, ∀ k < 4, (source.write 0x1008 0).read
      (srcAddr { image with srcStride := 16 } px py + k) =
      (source.write 0x1008 0x77).read (srcAddr { image with srcStride := 16 } px py + k) := by decide
  exact h px hx py hy k hk

/-- The first pixel, and the last, and after a conflicting write. -/
theorem witness_PixelStepWritesPixel :
    [busyAt 0 [], busyAt 3 [], { busyAt 3 [] with conflict := true }].all (fun s =>
    validOperation s && ordinaryExtents s.platform s.snap &&
      (pixelBytes s.platform s.mem s.snap s.regs.progress.toNat).isSome &&
      backedQuad s.platform (pixelAddr s.snap s.regs.progress.toNat)) = true := by decide

/-- A read that fails. -/
def brokenRead : State := { busyAt 3 [] with platform := { unbacked := [⟨0x100F, 0x1010⟩], unordinary := [] } }

/-- Program P5's write that fails. -/
def brokenWrite : State := { busyAt 2 [] with platform := holeInDestination }

theorem witness_BusErrorStopsOperation :
    (validOperation brokenRead = true ∧ ordinaryExtents brokenRead.platform brokenRead.snap = true ∧
      pixelBytes brokenRead.platform brokenRead.mem brokenRead.snap brokenRead.regs.progress.toNat =
        none) ∧
    validOperation brokenWrite = true ∧ ordinaryExtents brokenWrite.platform brokenWrite.snap = true ∧
    pixelBytes brokenWrite.platform brokenWrite.mem brokenWrite.snap brokenWrite.regs.progress.toNat =
      some ⟨0x46, 0x50, 0x5A, 0xFF⟩ ∧
    backedQuad brokenWrite.platform (pixelAddr brokenWrite.snap brokenWrite.regs.progress.toNat) = false := by
  decide

/-- The first source byte, and the last destination byte. -/
theorem witness_NonOrdinaryOperationRefused :
    (onDevice.regs.busy = true ∧ validOperation onDevice = true ∧
      (⟨0x1000, 0x1001⟩ : AddrRange) ∈ onDevice.platform.unordinary ∧
      inSource onDevice.snap 0x1000 = true) ∧
    inDestination onDevice.snap 0x200F = true := by decide

theorem witness_ConfigurationWritesDoNotReachOperation :
    let s := busyAt 1 []
    let r := { s.regs with srcBase := 0x4000, dstSize := 0, fmt := 3, irqEn := true }
    r.busy = s.regs.busy ∧ r.done = s.regs.done ∧ r.ign = s.regs.ign ∧ r.err = s.regs.err ∧
      r.progress = s.regs.progress ∧ r ≠ s.regs := by decide

theorem witness_MemoryChangesOnlyInDestination : (busyAt 1 []).Inv ∧
    (∃ t, step (busyAt 1 []) = .next t) ∧
    (∀ agent i lanes q rest, (busyAt 1 []).inputs ≠ .memWrite agent i lanes q :: rest) ∧
    inDestination (busyAt 1 []).snap 0x2010 = false ∧ (idle []).regs.busy = false :=
  ⟨by constructor <;> decide, ⟨_, rfl⟩, by simp [busyAt, idle], by decide, by decide⟩

theorem witness_OperationComputesResize : (busyAt 0 []).Inv ∧ (busyAt 0 []).regs.busy = true ∧
    (busyAt 0 []).regs.progress = 0 ∧ (busyAt 0 []).conflict = false ∧ (busyAt 0 []).inputs = [] ∧
    ordinaryExtents (busyAt 0 []).platform (busyAt 0 []).snap = true ∧
    ∀ a, (inSource (busyAt 0 []).snap a = true ∨ inDestination (busyAt 0 []).snap a = true) →
      backed (busyAt 0 []).platform a = true :=
  ⟨by constructor <;> decide, rfl, rfl, rfl, rfl, by decide, fun _ _ => rfl⟩

/-- An operation that succeeds, and program P5's, which does not. -/
theorem witness_OperationEnds :
    let s := { busyAt 0 [] with platform := holeInDestination }
    ((busyAt 0 []).Inv ∧ (busyAt 0 []).regs.busy = true ∧ (busyAt 0 []).inputs = [] ∧
      ordinaryExtents (busyAt 0 []).platform (busyAt 0 []).snap = true) ∧
    s.Inv ∧ s.regs.busy = true ∧ s.inputs = [] ∧ ordinaryExtents s.platform s.snap = true :=
  ⟨⟨by constructor <;> decide, rfl, rfl, by decide⟩, by constructor <;> decide, rfl, rfl, by decide⟩

/-- A source byte, a destination byte already written, and one still to be written; the engine goes on. -/
theorem witness_ConflictingWrite :
    (busyAt 1 []).inReset = false ∧
    (busyAt 1 []).regs.busy = true ∧ (0b1001#4).getLsbD 0 = true ∧ (0b1001#4).getLsbD 3 = true ∧
    inSource (busyAt 1 []).snap (4 * (0x400#30).toNat + 0) = true ∧
    inDestination (busyAt 1 []).snap (4 * (0x800#30).toNat + 3) = true ∧
    inDestination (busyAt 1 []).snap (4 * (0x801#30).toNat + 0) = true ∧
    backed (busyAt 1 []).platform (4 * (0x400#30).toNat + 0) = true ∧
    dstStart (busyAt 1 []).snap + 4 * (busyAt 1 []).regs.progress.toNat = 4 * (0x801#30).toNat ∧
    ∃ u, pixelStep (busyAt 1 []) = .next u :=
  ⟨rfl, by decide, by decide, by decide, by decide, by decide, by decide, by decide, by decide, _, rfl⟩

/-- A source byte that is not backed: the form whose byte becomes a free value (log entry 17). -/
theorem witness_ConflictingWrite_unbacked :
    let s := { busyAt 1 [] with platform := { unbacked := [⟨0x1003, 0x1004⟩], unordinary := [] } }
    s.inReset = false ∧ s.regs.busy = true ∧ (0b1001#4).getLsbD 3 = true ∧
      inSource s.snap (4 * (0x400#30).toNat + 3) = true ∧
      backed s.platform (4 * (0x400#30).toNat + 3) = false ∧
      backed s.platform (4 * (0x400#30).toNat + 0) = true ∧
      4 * (0x400#30).toNat + 3 < dstStart s.snap + 4 * s.regs.progress.toNat := by decide

/-- A pixel not yet written reads as its old bytes or its result (70_reset_and_hazards.md R243, vector P5). -/
theorem test_early_read : visibleQuads 0x2004 (busyAt 1 []) = [⟨0, 0, 0, 0⟩, ⟨0x28, 0x32, 0x3C, 0xFF⟩] ∧
    visibleQuads 0x2000 (busyAt 1 []) = [⟨0, 0, 0, 0⟩] := by decide

/-- An agent's aligned write of four bytes is one step, and its lanes land by address (20_memory.md R71). -/
theorem test_agent_write : nextIs (step (idle [.memWrite .host 0x1000 0b1101 ⟨0x11, 0x22, 0x33, 0x44⟩]))
    (fun t => loadQuad t.mem 0x4000 == ⟨0x11, 0x00, 0x33, 0x44⟩) = true := by decide

theorem witness_HarmlessWrite : backed (idle []).platform (4 * (0x3FFFFFFF#30).toNat + 3) = true ∧
    (0b1000#4).getLsbD 3 = true ∧ (idle []).inReset = false ∧ (busyAt 1 []).inReset = false ∧
    (idle []).regs.busy = false ∧ (busyAt 1 []).regs.busy = true ∧
    inSource (busyAt 1 []).snap 0x1010 = false ∧ inDestination (busyAt 1 []).snap 0x1010 = false ∧
    inDestination (busyAt 1 []).snap 0x2010 = false := by decide

/-- The operation has ended, and the host has not yet been shown pixels 0 and 3. -/
def unseen : State := { busyAt 0 [] with
  regs := { base with done := true, irqEn := true, progress := 4 }
  stale := [⟨0x2000, ⟨1, 1, 1, 1⟩⟩, ⟨0x200C, ⟨2, 2, 2, 2⟩⟩] }

theorem witness_ShownPixelsReadAsWritten :
    unseen.inReset = false ∧
    (∃ t, exec (.mmioRd .progress) unseen = .next t) ∧
    (∃ t, exec (.mmioRd .status) unseen = .next t) ∧ (∃ t, takeInput .irqTaken unseen = .next t) ∧
    reportsOperation unseen.regs = true ∧ irq unseen = true ∧
    (0 < unseen.regs.progress.toNat ∧ 4 * (0x800#30).toNat = pixelAddr unseen.snap 0) ∧
    (3 < unseen.regs.progress.toNat ∧ 4 * (0x803#30).toNat = pixelAddr unseen.snap 3) ∧
    backedQuad unseen.platform (4 * (0x803#30).toNat) = true :=
  ⟨rfl, ⟨_, rfl⟩, ⟨_, rfl⟩, ⟨_, rfl⟩, by decide, by decide, by decide, by decide, by decide⟩

theorem witness_HostReadsWholePixels :
    unseen.inReset = false ∧ { unseen with platform := holeInDestination }.inReset = false ∧
    backedQuad holeInDestination (4 * (0x802#30).toNat) = false ∧
    backedQuad unseen.platform (4 * (0x803#30).toNat) = true ∧
    backedQuad unseen.platform (4 * (0x3FFFFFFF#30).toNat) = true := by decide

/-- Nothing stale before; the engine's write of pixel 0 makes its own pixel stale and no other. -/
theorem witness_ShownPixelsStayShown : ∃ t, step (busyAt 0 []) = .next t ∧
    (∀ v ∈ (busyAt 0 []).stale, v.addr ≠ 0x2000) ∧ (∀ v ∈ t.stale, v.addr ≠ 0x2004) ∧
    ∃ v ∈ t.stale, v.addr = 0x2000 := ⟨_, rfl, by decide, by decide, by decide⟩

theorem witness_ResetRegisters :
    (busyAt 1 [.resetAssert]).inputs = .resetAssert :: [] ∧
    (idle [.resetRelease]).inputs = .resetRelease :: [] := by decide

theorem witness_ResetMemory : (busyAt 1 [.resetAssert]).inputs = .resetAssert :: [] ∧
    (busyAt 1 [.resetAssert]).regs.busy = true ∧ (idle [.resetAssert]).regs.busy = false ∧
    inDestination (busyAt 1 []).snap 0x2000 = true ∧ inDestination (busyAt 1 []).snap 0x200F = true ∧
    inDestination (busyAt 1 []).snap 0x1FFF = false ∧ inDestination (busyAt 1 []).snap 0x2010 = false := by
  decide

end Sys2Proof.Tests
end

section
/-! Proofs of the statements about 00_scope.md: a step runs the instruction its input decodes to (R9, R126),
and no step changes the platform (R5). -/

namespace Sys2Proof.Machine

/-! ## What a port input runs -/

/-- While reset is not held the port runs what it is given (40_host_access.md R126). -/
theorem takePort_running (e : Encoded) {s : State} (h : s.inReset = false) :
    takePort e s = runEncoded e s := by
  simp [takePort, h]

/-- An input that decodes runs its instruction's meaning (30_encoding.md R94, R97). -/
theorem runEncoded_of_decode {e : Encoded} {i : Instr} (h : decode e = .ok i) (s : State) :
    runEncoded e s = exec i s := by
  simp only [runEncoded, h]

/-- Settles O6: the step takes the input off the list, the port is not held in reset, and the input decodes. -/
theorem stepRunsDecodedInstruction : Obligations.StepRunsDecodedInstruction := by
  intro s e rest i hin hreset hdec
  calc step s = takeInput (.port e) { s with inputs := rest } := step_cons hin
    _ = takePort e { s with inputs := rest } := rfl
    _ = runEncoded e { s with inputs := rest } := takePort_running e hreset
    _ = exec i { s with inputs := rest } := runEncoded_of_decode hdec _

/-! ## The platform -/

@[simp] theorem command_platform (w : Word) (s : State) : (command w s).platform = s.platform :=
  (command_frame w s).1

@[simp] theorem invalidTransaction_platform (write : Bool) (s : State) :
    (invalidTransaction write s).platform = s.platform := rfl

/-- No input of the register port changes the platform. -/
theorem runEncoded_platform {e : Encoded} {s t : State} (h : runEncoded e s = .next t) :
    t.platform = s.platform := by
  rcases runEncoded_cases e s with ⟨reg, -, hread⟩ | ⟨reg, w, -, -, hwrite⟩ | ⟨w, -, hcommand⟩ |
    ⟨write, -, hinvalid⟩
  · cases hread.symm.trans h; simp
  · cases hwrite.symm.trans h; simp
  · cases hcommand.symm.trans h; simp
  · cases hinvalid.symm.trans h; simp

/-- Settles O31, by what a step can be: each of the engine's, the port's, the agents' and reset's operations
keeps the platform, as its frame lemma says. -/
theorem platformIsFixed : Obligations.PlatformIsFixed := by
  intro s t h
  obtain ⟨rest, -, hcases⟩ := step_cases h
  rcases hcases with ⟨q, -, -, -, -, -, rfl⟩ | ⟨-, -, -, -, -, rfl⟩ | ⟨-, -, rfl⟩ | ⟨e, -, -, hport⟩ |
    ⟨agent, i, lanes, q, -, -, rfl⟩ | ⟨i, -, -, rfl⟩ | ⟨-, -, rfl⟩ | ⟨-, rfl⟩ | ⟨-, rfl⟩
  · exact writePixel_platform _ q
  · exact stopBus_platform _
  · rfl
  · exact (runEncoded_platform hport :)
  · exact agentWrite_platform _ i lanes q
  · exact hostRead_platform _ i
  · exact takeInterrupt_platform _
  · exact assertReset_platform _
  · exact releaseReset_platform _

end Sys2Proof.Machine
end

section
/-! Proofs of the statements about 10_state.md: what a register read and write do (R20 to R35), what each step
can change (R29 to R37), the invariant every step keeps, and what the engine's step reads (R36, R241). -/

namespace Sys2Proof.Machine

/-! ## One register write (40_host_access.md R121) -/

section WriteReg

variable (r : Regs) (reg : Reg) (w : Word)

@[simp] theorem writeReg_busy : (writeReg r reg w).busy = r.busy := by cases reg <;> rfl
@[simp] theorem writeReg_done : (writeReg r reg w).done = r.done := by cases reg <;> rfl
@[simp] theorem writeReg_ign : (writeReg r reg w).ign = r.ign := by cases reg <;> rfl
@[simp] theorem writeReg_err : (writeReg r reg w).err = r.err := by cases reg <;> rfl
@[simp] theorem writeReg_progress : (writeReg r reg w).progress = r.progress := by cases reg <;> rfl

theorem writeReg_irqEn :
    (writeReg r reg w).irqEn = if reg = .ctrl then w.getLsbD 0 else r.irqEn := by cases reg <;> rfl
theorem writeReg_srcBase :
    (writeReg r reg w).srcBase = if reg = .srcBase then w else r.srcBase := by cases reg <;> rfl
theorem writeReg_srcStride :
    (writeReg r reg w).srcStride = if reg = .srcStride then w else r.srcStride := by cases reg <;> rfl
theorem writeReg_srcSize :
    (writeReg r reg w).srcSize = if reg = .srcSize then w else r.srcSize := by cases reg <;> rfl
theorem writeReg_dstBase :
    (writeReg r reg w).dstBase = if reg = .dstBase then w else r.dstBase := by cases reg <;> rfl
theorem writeReg_dstSize :
    (writeReg r reg w).dstSize = if reg = .dstSize then w else r.dstSize := by cases reg <;> rfl
theorem writeReg_fmt :
    (writeReg r reg w).fmt = if reg = .format then w.extractLsb' 0 2 else r.fmt := by cases reg <;> rfl

end WriteReg

/-- A write of a register other than `CMD` changes that register and the port's answer (40_host_access.md
R121). -/
theorem exec_mmioWr {reg : Reg} (h : reg ≠ .cmd) (w : Word) (s : State) :
    exec (.mmioWr reg w) s = .next (respond (.okay none) { s with regs := writeReg s.regs reg w }) := by
  cases reg with
  | cmd => exact absurd rfl h
  | _ => rfl

/-- A read answers the register's word (40_host_access.md R120). -/
theorem exec_mmioRd (reg : Reg) (s : State) : exec (.mmioRd reg) s =
    .next (respond (.okay (some (readReg s.regs reg))) (orderRead reg s)) := rfl

/-- Zeros on top of a field do not change its number; said for every width, since a `Word`'s 32 is not
written as the sum of the two. -/
theorem toNat_zero_append {n m : Nat} (x : BitVec m) : (0#n ++ x).toNat = x.toNat := by simp

/-- Bit 0 of a word, zero-extended (10_state.md R28). -/
theorem zero_append_bit_zero (w : Word) : 0#31 ++ BitVec.ofBool (w.getLsbD 0) = w &&& 1#32 := by
  have bit : (BitVec.ofBool (w.getLsbD 0)).toNat = (w &&& 1#32).toNat := by
    rw [BitVec.toNat_ofBool, BitVec.getLsbD, Nat.toNat_testBit]
    simp
  exact BitVec.eq_of_toNat_eq ((toNat_zero_append _).trans bit)

/-- Bits 1 and 0 of a word, zero-extended (10_state.md R27). -/
theorem zero_append_low_two (w : Word) : 0#30 ++ w.extractLsb' 0 2 = w &&& 3#32 := by
  have bits : (w.extractLsb' 0 2).toNat = (w &&& 3#32).toNat := by
    simpa using (Nat.and_two_pow_sub_one_eq_mod w.toNat 2).symm
  exact BitVec.eq_of_toNat_eq ((toNat_zero_append _).trans bits)

/-- Settles O13: the write stores the register's own field, and the read answers from that field. -/
theorem readBackAfterWrite : Obligations.ReadBackAfterWrite := by
  intro reg w s hcmd
  refine ⟨_, _, _, exec_mmioWr hcmd w s, exec_mmioRd reg _, rfl, ?_, ?_, ?_, ?_⟩
  · rintro (rfl | rfl | rfl | rfl | rfl) <;> rfl
  · rintro rfl; exact zero_append_bit_zero w
  · rintro rfl; exact zero_append_low_two w
  · rintro (rfl | rfl | rfl | ⟨k, rfl⟩) <;> exact ⟨_, exec_mmioRd _ s, rfl⟩

/-! ## The snapshot's fields, the interrupt, the channel orders and reset -/

/-- A size register is its low half plus 65536 times its high half (30_encoding.md R96). -/
theorem toNat_eq_halves (w : Word) :
    w.toNat = (w.extractLsb' 0 16).toNat + 65536 * (w.extractLsb' 16 16).toNat := by
  have bound := w.isLt
  simp only [BitVec.extractLsb'_toNat, Nat.shiftRight_eq_div_pow]
  omega

/-- Settles O20: the fields are copied, and each size register splits into its halves. -/
theorem snapshotOfRegisters : Obligations.SnapshotOfRegisters := fun r =>
  ⟨rfl, rfl, rfl, rfl, toNat_eq_halves r.srcSize, toNat_eq_halves r.dstSize⟩

theorem irq_eq_true (s : State) : irq s = true ↔ s.regs.irqEn = true ∧ s.regs.done = true := by
  simp [irq]

/-- Settles O23: `IRQ` is a level, read again after the write of `CTRL`. -/
theorem interruptLevel : Obligations.InterruptLevel := fun s w =>
  ⟨irq_eq_true s, _, exec_mmioWr (by decide) w s, irq_eq_true _⟩

/-- Settles O38, by cases of the format. -/
theorem channelOrders : Obligations.ChannelOrders :=
  ⟨fun _ _ => rfl, fun _ => ⟨rfl, rfl, rfl⟩, encodePixel_decodePixel, decodePixel_encodePixel, rfl, rfl, rfl,
    ofCode_eq_none.2 rfl⟩

/-- Every register reads 0 right after reset but `ID` (10_state.md R20). -/
theorem readReg_reset (reg : Reg) : readReg Regs.reset reg = if reg = .id then idValue else 0 := by
  cases reg <;> rfl

/-- The turn of an idle engine changes nothing (60_exceptions.md R216). -/
theorem engineTurn_idle {s : State} (h : s.regs.busy = false) : engineTurn s = .next s := by
  simp [engineTurn, h]

/-- Settles O60: the reset values of the registers, and the turn of an idle engine. -/
theorem stateAfterReset : Obligations.StateAfterReset := by
  refine ⟨fun reg => ⟨_, exec_mmioRd reg State.reset, ?_⟩, rfl, rfl, ?_⟩
  · exact congrArg (fun v => Response.okay (some v)) (readReg_reset reg)
  · exact (step_nil rfl).trans (engineTurn_idle rfl)

end Sys2Proof.Machine
end

section
/-! Proofs of the statements about what a step can change (10_state.md R29 to R36): the registers' changes by
named cause, and what each cause does to one bit or field. -/

namespace Sys2Proof.Machine

/-! ## The causes of a change -/

/-- Why a step leaves the registers and the snapshot as it does, one constructor for each cause: the
exclusive cases of `step_regs_cases` with the command word's own cases taken apart. -/
inductive RegsChange (s t : State) : Prop where
  | kept (snap : t.snap = s.snap) (regs : t.regs = s.regs)
  | written (reg : Reg) (w : Word) (running : s.inReset = false) (writes : s.writesReg reg w)
      (snap : t.snap = s.snap) (regs : t.regs = writeReg s.regs reg w)
  | discarded (w : Word) (running : s.inReset = false) (submitted : s.submits w)
      (busy : s.regs.busy = true) (word : w ≠ 0#32) (snap : t.snap = s.snap)
      (regs : t.regs = { s.regs with ign := true })
  | started (running : s.inReset = false) (submitted : s.submits 1#32) (idle : s.regs.busy = false)
      (verdict : validate (takeSnapshot s.regs) = .accepted) (snap : t.snap = takeSnapshot s.regs)
      (regs : t.regs = { s.regs with progress := 0, done := false, err := .none, busy := true })
  | declined (code : ErrCode) (running : s.inReset = false) (submitted : s.submits 1#32)
      (idle : s.regs.busy = false)
      (verdict : (validate (takeSnapshot s.regs) = .empty ∧ code = .none) ∨
        validate (takeSnapshot s.regs) = .rejected code) (snap : t.snap = takeSnapshot s.regs)
      (regs : t.regs = { s.regs with progress := 0, done := true, err := code, busy := false })
  | acknowledged (running : s.inReset = false) (submitted : s.submits 2#32) (idle : s.regs.busy = false)
      (snap : t.snap = s.snap) (regs : t.regs = { s.regs with done := false, err := .none, ign := false })
  | illegal (w : Word) (running : s.inReset = false) (submitted : s.submits w) (idle : s.regs.busy = false)
      (word : w ≠ 0#32 ∧ w ≠ 1#32 ∧ w ≠ 2#32) (snap : t.snap = s.snap)
      (regs : t.regs = { s.regs with busy := false, done := true, err := .illegalCmd })
  | counted (q : Quad) (acts : s.engineActs) (busy : s.regs.busy = true) (valid : validOperation s = true)
      (bytes : pixelBytes s.platform s.mem s.snap s.regs.progress.toNat = some q)
      (mem : t.mem = storeLanes s.mem (pixelAddr s.snap s.regs.progress.toNat) (toLanes (bytesToWrite q s)))
      (more : s.regs.progress.toNat + 1 ≠ pixelCount s.snap) (snap : t.snap = s.snap)
      (regs : t.regs = { s.regs with progress := s.regs.progress + 1 })
  | completed (q : Quad) (acts : s.engineActs) (busy : s.regs.busy = true) (valid : validOperation s = true)
      (bytes : pixelBytes s.platform s.mem s.snap s.regs.progress.toNat = some q)
      (mem : t.mem = storeLanes s.mem (pixelAddr s.snap s.regs.progress.toNat) (toLanes (bytesToWrite q s)))
      (last : s.regs.progress.toNat + 1 = pixelCount s.snap) (snap : t.snap = s.snap)
      (regs : t.regs = { s.regs with
        progress := s.regs.progress + 1, busy := false, done := true, err := .none })
  | failed (acts : s.engineActs) (busy : s.regs.busy = true) (snap : t.snap = s.snap)
      (regs : t.regs = { s.regs with busy := false, done := true, err := .bus })
  | reset (asserted : s.meetsReset) (regs : t.regs = Regs.reset)

/-- Every step has one of these causes. -/
theorem step_regsChange {s t : State} (h : step s = .next t) : RegsChange s t := by
  rcases step_regs_cases h with ⟨snap, regs⟩ | ⟨reg, w, running, writes, -, snap, regs⟩ |
    ⟨w, running, submitted, snap, regs⟩ | ⟨q, acts, busy, valid, snap, bytes, mem, engine⟩ |
    ⟨acts, busy, -, snap, regs⟩ | ⟨asserted, regs⟩
  · exact .kept snap regs
  · exact .written reg w running writes snap regs
  · rcases command_regs_cases w s with ⟨hs, hr⟩ | ⟨busy, word, hs, hr⟩ | ⟨idle, rfl, hs, resize⟩ |
      ⟨idle, rfl, hs, hr⟩ | ⟨idle, word, hs, hr⟩
    · exact .kept (snap.trans hs) (regs.trans hr)
    · exact .discarded w running submitted busy word (snap.trans hs) (regs.trans hr)
    · rcases resize with ⟨verdict, hr⟩ | ⟨code, verdict, hr⟩
      · exact .started running submitted idle verdict (snap.trans hs) (regs.trans hr)
      · exact .declined code running submitted idle verdict (snap.trans hs) (regs.trans hr)
    · exact .acknowledged running submitted idle (snap.trans hs) (regs.trans hr)
    · exact .illegal w running submitted idle word (snap.trans hs) (regs.trans hr)
  · rcases engine with ⟨more, regs⟩ | ⟨last, regs⟩
    · exact .counted q acts busy valid bytes mem more snap regs
    · exact .completed q acts busy valid bytes mem last snap regs
  · exact .failed acts busy snap regs
  · exact .reset asserted regs

/-! ## The pixel count (10_state.md R37) -/

/-- `PROGRESS` can hold every pixel count. -/
theorem pixelCount_lt (sn : Snapshot) : pixelCount sn < 2 ^ 32 := by
  have width : sn.dstW.toNat ≤ 2 ^ 16 - 1 := Nat.le_sub_one_of_lt sn.dstW.isLt
  have height : sn.dstH.toNat ≤ 2 ^ 16 - 1 := Nat.le_sub_one_of_lt sn.dstH.isLt
  calc pixelCount sn ≤ (2 ^ 16 - 1) * (2 ^ 16 - 1) := Nat.mul_le_mul width height
    _ < 2 ^ 32 := by norm_num

/-- Counting a pixel of an operation does not wrap. -/
theorem toNat_progress_succ {sn : Snapshot} {n : Word} (h : n.toNat < pixelCount sn) :
    (n + 1).toNat = n.toNat + 1 := by
  have bound := pixelCount_lt sn
  have one : (1 : Word).toNat = 1 := rfl
  rw [BitVec.toNat_add, one, Nat.mod_eq_of_lt (by omega)]

theorem validOperation_iff {s : State} : validOperation s = true ↔
    validate s.snap = .accepted ∧ s.regs.progress.toNat < pixelCount s.snap := by
  simp [validOperation]

/-- A pixel of an accepted operation lies inside the memory space (41_commands.md R143, 20_memory.md R67). -/
theorem pixelAddr_inside {sn : Snapshot} {i : Nat} (h : validate sn = .accepted) (hi : i < pixelCount sn) :
    pixelAddr sn i + 4 ≤ memBytes := by
  obtain ⟨-, -, -, -, -, ⟨-, fits⟩, -⟩ := validate_accepted.1 h
  rw [dstEnd_eq] at fits
  rw [pixelAddr_eq]
  omega

/-- An accepted operation has a pixel to write (41_commands.md R143). -/
theorem pixelCount_pos {sn : Snapshot} (h : validate sn = .accepted) : 0 < pixelCount sn := by
  obtain ⟨-, ⟨width, height⟩, -⟩ := validate_accepted.1 h
  exact Nat.mul_pos (toNat_pos_of_ne_zero width) (toNat_pos_of_ne_zero height)

/-! ## `BUSY`, `DONE`, `ERR` and `IGN` -/

/-- Settles O24: of all causes only an accepted `RESIZE` sets `BUSY`, and only the engine's last pixel, its
bus error and reset clear it. -/
theorem busyChanges : Obligations.BusyChanges := by
  intro s t h
  refine ⟨fun wasIdle isBusy => ?_, fun wasBusy isIdle => ?_⟩
  · cases step_regsChange h with
    | started _ submitted _ verdict => exact ⟨submitted, verdict⟩
    | _ => simp_all [Regs.reset]
  · cases step_regsChange h with
    | completed _ acts _ valid _ _ last _ regs =>
      have count : t.regs.progress.toNat = pixelCount s.snap := by
        rw [regs, ← last]; exact toNat_progress_succ (validOperation_iff.1 valid).2
      exact .inr ⟨acts, by rw [regs], .inr ⟨by rw [regs], count⟩⟩
    | failed acts _ _ regs => exact .inr ⟨acts, by rw [regs], .inl (by rw [regs])⟩
    | reset asserted => exact .inl asserted
    | _ => simp_all

/-- A `RESIZE` that is declined is not accepted. -/
theorem not_accepted_of_declined {v : Verdict} {code : ErrCode}
    (h : (v = .empty ∧ code = .none) ∨ v = .rejected code) : v ≠ .accepted := by
  rcases h with ⟨rfl, -⟩ | rfl <;> nofun

/-- Settles O25: the three causes that set `DONE`, with the code each leaves in `ERR`, and the three that
clear both. -/
theorem doneAndErrChanges : Obligations.DoneAndErrChanges := by
  intro s t h
  dsimp only
  refine ⟨fun wasClear isSet => ?_, fun wasSet isClear => ?_, fun changed => ?_⟩
  · cases step_regsChange h with
    | completed _ acts busy _ _ _ _ _ regs => exact .inl ⟨acts, busy, by rw [regs]⟩
    | failed acts busy _ regs => exact .inl ⟨acts, busy, by rw [regs]⟩
    | declined _ _ submitted idle verdict =>
      exact .inr (.inl ⟨idle, submitted, not_accepted_of_declined verdict⟩)
    | illegal w _ submitted idle word => exact .inr (.inr ⟨idle, w, submitted, word⟩)
    | _ => simp_all [Regs.reset]
  · cases step_regsChange h with
    | started _ submitted idle verdict => exact .inl ⟨idle, submitted, verdict⟩
    | acknowledged _ submitted idle => exact .inr (.inl ⟨idle, submitted⟩)
    | reset asserted => exact .inr (.inr asserted)
    | _ => simp_all
  · cases step_regsChange h with
    | completed _ acts busy _ _ _ _ _ regs =>
      exact .inl ⟨by rw [regs], .inl ⟨⟨acts, busy, by rw [regs]⟩, .inl (by rw [regs])⟩⟩
    | failed acts busy _ regs =>
      exact .inl ⟨by rw [regs], .inl ⟨⟨acts, busy, by rw [regs]⟩, .inr (by rw [regs])⟩⟩
    | declined _ _ submitted idle verdict _ regs =>
      refine .inl ⟨by rw [regs], .inr (.inl ⟨⟨idle, submitted, not_accepted_of_declined verdict⟩, ?_⟩)⟩
      rw [regs]; exact verdict
    | illegal w _ submitted idle word _ regs =>
      exact .inl ⟨by rw [regs], .inr (.inr ⟨⟨idle, w, submitted, word⟩, by rw [regs]⟩)⟩
    | started _ submitted idle verdict _ regs =>
      exact .inr ⟨by rw [regs], by rw [regs], .inl ⟨idle, submitted, verdict⟩⟩
    | acknowledged _ submitted idle _ regs =>
      exact .inr ⟨by rw [regs], by rw [regs], .inr (.inl ⟨idle, submitted⟩)⟩
    | reset asserted regs => exact .inr ⟨by rw [regs]; rfl, by rw [regs]; rfl, .inr (.inr asserted)⟩
    | _ => simp_all

/-- Settles O26: only a discarded word sets `IGN`, and only `CLEAR` and reset clear it. -/
theorem ignChanges : Obligations.IgnChanges := by
  intro s t h
  refine ⟨fun wasClear isSet => ?_, fun wasSet isClear => ?_⟩
  · cases step_regsChange h with
    | discarded w _ submitted busy word => exact ⟨busy, w, submitted, word⟩
    | _ => simp_all [Regs.reset]
  · cases step_regsChange h with
    | acknowledged _ submitted idle => exact .inl ⟨idle, submitted⟩
    | reset asserted => exact .inr asserted
    | _ => simp_all

/-! ## `PROGRESS`, the snapshot, `CTRL` and the configuration -/

/-- The configuration and `CTRL` of `r` with the `STATUS` and `PROGRESS` of `u`. -/
def Regs.withStatusOf (r u : Regs) : Regs :=
  { r with busy := u.busy, done := u.done, ign := u.ign, err := u.err, progress := u.progress }

/-- A step that neither writes a register nor meets reset leaves the configuration and `CTRL` alone. -/
theorem step_config {s t : State} (h : step s = .next t) :
    (∃ reg w, s.writesReg reg w ∧ t.regs = writeReg s.regs reg w) ∨
    (s.meetsReset ∧ t.regs = Regs.reset) ∨ t.regs = s.regs.withStatusOf t.regs := by
  cases step_regsChange h with
  | written reg w _ writes _ regs => exact .inl ⟨reg, w, writes, regs⟩
  | reset asserted regs => exact .inr (.inl ⟨asserted, regs⟩)
  | kept _ regs => exact .inr (.inr (by rw [regs]; rfl))
  | discarded _ _ _ _ _ _ regs => exact .inr (.inr (by rw [regs]; rfl))
  | started _ _ _ _ _ regs => exact .inr (.inr (by rw [regs]; rfl))
  | declined _ _ _ _ _ _ regs => exact .inr (.inr (by rw [regs]; rfl))
  | acknowledged _ _ _ _ regs => exact .inr (.inr (by rw [regs]; rfl))
  | illegal _ _ _ _ _ _ regs => exact .inr (.inr (by rw [regs]; rfl))
  | counted _ _ _ _ _ _ _ _ regs => exact .inr (.inr (by rw [regs]; rfl))
  | completed _ _ _ _ _ _ _ _ regs => exact .inr (.inr (by rw [regs]; rfl))
  | failed _ _ _ regs => exact .inr (.inr (by rw [regs]; rfl))

/-- A field that a write of `own` sets to `v` stays, or takes its bits by a write of that very register. -/
theorem field_of_write {α : Type} {s : State} {reg own : Reg} {w : Word} (writes : s.writesReg reg w)
    {new old : α} (f : Word → α) (h : new = if reg = own then f w else old) :
    new = old ∨ ∃ v, s.writesReg own v ∧ new = f v := by
  split_ifs at h with same
  · subst same; exact .inr ⟨w, writes, h⟩
  · exact .inl h

/-- The pixel the engine stores holds the bytes it wrote (20_memory.md R63, R69). -/
theorem loadQuad_of_stored {s t : State} {q : Quad} (valid : validOperation s = true)
    (mem : t.mem = storeLanes s.mem (pixelAddr s.snap s.regs.progress.toNat) (toLanes q)) :
    loadQuad t.mem (pixelAddr s.snap s.regs.progress.toNat) = q := by
  obtain ⟨accepted, left⟩ := validOperation_iff.1 valid
  rw [mem, loadQuad_storeLanes _ _ (pixelAddr_inside accepted left), ofLanes_toLanes]

/-- Only a taken `RESIZE`, a counted pixel and reset change `PROGRESS` (10_state.md R34). -/
theorem step_progress {s t : State} (h : step s = .next t) :
    t.regs.progress = s.regs.progress ∨
    (s.regs.busy = false ∧ s.submits 1#32 ∧ t.regs.progress = 0) ∨
    (s.engineActs ∧ s.regs.busy = true ∧ t.regs.progress = s.regs.progress + 1 ∧
      loadQuad t.mem (pixelAddr s.snap s.regs.progress.toNat) =
        bytesToWrite ((pixelBytes s.platform s.mem s.snap s.regs.progress.toNat).getD ⟨0, 0, 0, 0⟩) s) ∨
    (s.meetsReset ∧ t.regs.progress = 0) := by
  cases step_regsChange h with
  | started _ submitted idle _ _ regs => exact .inr (.inl ⟨idle, submitted, by rw [regs]⟩)
  | declined _ _ submitted idle _ _ regs => exact .inr (.inl ⟨idle, submitted, by rw [regs]⟩)
  | counted _ acts busy valid bytes mem _ _ regs =>
    refine .inr (.inr (.inl ⟨acts, busy, by rw [regs], ?_⟩))
    rw [bytes]; exact loadQuad_of_stored valid mem
  | completed _ acts busy valid bytes mem _ _ regs =>
    refine .inr (.inr (.inl ⟨acts, busy, by rw [regs], ?_⟩))
    rw [bytes]; exact loadQuad_of_stored valid mem
  | reset asserted regs => exact .inr (.inr (.inr ⟨asserted, by rw [regs]; rfl⟩))
  | _ => exact .inl (by simp_all)

/-- Only a taken `RESIZE` and reset change the snapshot (10_state.md R36). -/
theorem step_snap {s t : State} (h : step s = .next t) :
    t.snap = s.snap ∨ (s.regs.busy = false ∧ s.submits 1#32 ∧ t.snap = takeSnapshot s.regs) ∨
    s.meetsReset := by
  cases step_regsChange h with
  | started _ submitted idle _ snap => exact .inr (.inl ⟨idle, submitted, snap⟩)
  | declined _ _ submitted idle _ snap => exact .inr (.inl ⟨idle, submitted, snap⟩)
  | reset asserted => exact .inr (.inr asserted)
  | _ => exact .inl (by assumption)

/-- Settles O27: `PROGRESS` and the snapshot by the cause of the step, and the configuration by whether the
step writes a register, meets reset, or does neither. -/
theorem progressSnapshotAndConfigurationChanges : Obligations.ProgressSnapshotAndConfigurationChanges := by
  intro s t h
  refine ⟨step_progress h, step_snap h, ?_⟩
  rcases step_config h with ⟨reg, w, writes, regs⟩ | ⟨asserted, regs⟩ | same
  · rw [regs]
    exact .inr ⟨field_of_write writes (·.getLsbD 0) (writeReg_irqEn ..),
      field_of_write writes id (writeReg_srcBase ..), field_of_write writes id (writeReg_srcStride ..),
      field_of_write writes id (writeReg_srcSize ..), field_of_write writes id (writeReg_dstBase ..),
      field_of_write writes id (writeReg_dstSize ..),
      field_of_write writes (·.extractLsb' 0 2) (writeReg_fmt ..)⟩
  · exact .inl ⟨asserted, regs⟩
  · rw [same]
    exact .inr ⟨.inl rfl, .inl rfl, .inl rfl, .inl rfl, .inl rfl, .inl rfl, .inl rfl⟩

end Sys2Proof.Machine
end

section
/-! Proofs of the statement that every step keeps the invariant (10_state.md R29 to R37), and that the
engine's step does not read the configuration registers (R36, R241). -/

namespace Sys2Proof.Machine

/-! ## What a step keeps of memory and reset -/

/-- A port input touches neither memory nor the reset pin (40_host_access.md R120 to R122). -/
theorem runEncoded_mem_inReset {e : Encoded} {s t : State} (h : runEncoded e s = .next t) :
    t.mem = s.mem ∧ t.inReset = s.inReset := by
  rcases runEncoded_cases e s with ⟨reg, -, hread⟩ | ⟨reg, w, -, -, hwrite⟩ | ⟨w, -, hcommand⟩ |
    ⟨write, -, hinvalid⟩
  · cases hread.symm.trans h; simp
  · cases hwrite.symm.trans h; simp
  · cases hcommand.symm.trans h
    obtain ⟨-, hmem, -, -, -, hreset, -, -⟩ := command_frame w s
    exact ⟨hmem, hreset⟩
  · cases hinvalid.symm.trans h; exact ⟨rfl, rfl⟩

/-- The engine's write keeps memory's canonical form, also where it fails (20_memory.md R63). -/
theorem wf_writePixel {s : State} (q : Quad) (h : Memory.wf s.mem = true) :
    Memory.wf (writePixel q s).mem = true := by
  rcases writePixel_cases q s with ⟨-, -, hw⟩ | ⟨-, -, hw⟩ | ⟨-, hw⟩ <;> rw [hw]
  · exact wf_storeLanes _ _ h
  · exact wf_storeLanes _ _ h
  · exact wf_fillFree _ _ _ h

/-- Reset keeps memory's canonical form (70_reset_and_hazards.md R236, R237). -/
theorem wf_assertReset {s : State} (h : Memory.wf s.mem = true) : Memory.wf (assertReset s).mem = true := by
  show Memory.wf (spoilDestination s).mem = true
  unfold spoilDestination
  split
  · exact wf_fillFree _ _ _ h
  · exact h

/-- Every step keeps memory's canonical form. -/
theorem step_keeps_wf {s t : State} (h : step s = .next t) (wf : Memory.wf s.mem = true) :
    Memory.wf t.mem = true := by
  obtain ⟨rest, -, hcases⟩ := step_cases h
  rcases hcases with ⟨q, -, -, -, -, -, rfl⟩ | ⟨-, -, -, -, -, rfl⟩ | ⟨-, -, rfl⟩ | ⟨e, -, -, hport⟩ |
    ⟨agent, i, lanes, q, -, -, rfl⟩ | ⟨i, -, -, rfl⟩ | ⟨-, -, rfl⟩ | ⟨-, rfl⟩ | ⟨-, rfl⟩
  · exact wf_writePixel q wf
  · exact wf
  · exact wf
  · rw [(runEncoded_mem_inReset hport).1]; exact wf
  · exact (agentWrite_keeps _ i lanes q).1 wf
  · rw [hostRead_mem]; exact wf
  · rw [takeInterrupt_mem]; exact wf
  · exact wf_assertReset wf
  · exact wf

/-- Reset is held after a step only where that step asserts it or it was held before
(70_reset_and_hazards.md R235). -/
theorem step_held {s t : State} (h : step s = .next t) (held : t.inReset = true) :
    s.meetsReset ∨ s.inReset = true := by
  obtain ⟨rest, -, hcases⟩ := step_cases h
  rcases hcases with ⟨q, -, -, -, -, -, rfl⟩ | ⟨-, -, -, -, -, rfl⟩ | ⟨-, -, rfl⟩ | ⟨e, -, -, hport⟩ |
    ⟨agent, i, lanes, q, -, -, rfl⟩ | ⟨i, -, -, rfl⟩ | ⟨-, -, rfl⟩ | ⟨asserted, -⟩ | ⟨-, rfl⟩
  · exact .inr (by simpa using held)
  · exact .inr held
  · exact .inr held
  · exact .inr ((runEncoded_mem_inReset hport).2.symm.trans held)
  · exact .inr (by simpa using held)
  · exact .inr (by simpa using held)
  · exact .inr (by simpa using held)
  · exact .inl ⟨rest, asserted⟩
  · exact absurd held (by simp)

/-- A step in which reset is held, and not asserted by that step, changes no register: the port takes nothing
and the engine is idle (70_reset_and_hazards.md R235). -/
theorem step_regs_of_held {s t : State} (h : step s = .next t) (held : s.inReset = true)
    (idle : s.regs.busy = false) : s.meetsReset ∨ t.regs = s.regs := by
  cases step_regsChange h with
  | kept _ regs => exact .inr regs
  | reset asserted => exact .inl asserted
  | _ => simp_all

/-- While reset is held after a step every register has its reset value (70_reset_and_hazards.md R235). -/
theorem step_keeps_heldReset {s t : State} (inv : s.Inv) (h : step s = .next t) (held : t.inReset = true) :
    t.regs = Regs.reset := by
  have asserted_resets : s.meetsReset → t.regs = Regs.reset := by
    rintro ⟨rest, hin⟩
    rw [step_cons hin] at h
    cases h; rfl
  rcases step_held h held with asserted | before
  · exact asserted_resets asserted
  · have was := inv.heldReset before
    rcases step_regs_of_held h before (by rw [was]; rfl) with asserted | same
    · exact asserted_resets asserted
    · exact same.trans was

/-! ## The invariant of the registers and the snapshot -/

/-- The clauses of the invariant that speak of the registers and the snapshot alone (10_state.md R29 to
R37). -/
structure RegsInv (r : Regs) (sn : Snapshot) : Prop where
  errDone : r.err ≠ .none → r.done = true
  busyNotDone : r.busy = true → r.done = false
  busyValid : r.busy = true → validate sn = .accepted ∧ r.progress.toNat < pixelCount sn
  progressBound : r.progress.toNat ≤ pixelCount sn

theorem State.Inv.regsInv {s : State} (inv : s.Inv) : RegsInv s.regs s.snap where
  errDone := inv.errDone
  busyNotDone := inv.busyNotDone
  busyValid busy := validOperation_iff.1 (inv.busyValid busy)
  progressBound := inv.progressBound

/-- The invariant is that of the registers and the snapshot, of memory, and of reset. -/
theorem RegsInv.inv {s : State} (inv : RegsInv s.regs s.snap) (wf : Memory.wf s.mem = true)
    (held : s.inReset = true → s.regs = Regs.reset) : s.Inv where
  memWf := wf
  errDone := inv.errDone
  busyNotDone := inv.busyNotDone
  busyValid busy := validOperation_iff.2 (inv.busyValid busy)
  progressBound := inv.progressBound
  heldReset := held

namespace RegsInv

variable {r : Regs} {sn : Snapshot}

/-- The reset values go with any snapshot (10_state.md R36 leaves it unspecified). -/
theorem reset (sn : Snapshot) : RegsInv Regs.reset sn where
  errDone := absurd rfl
  busyNotDone _ := rfl
  busyValid := nofun
  progressBound := Nat.zero_le _

/-- A write of a register other than `CMD` leaves `STATUS` and `PROGRESS` alone. -/
theorem writeReg (inv : RegsInv r sn) (reg : Reg) (w : Word) : RegsInv (Machine.writeReg r reg w) sn where
  errDone := by simpa using inv.errDone
  busyNotDone := by simpa using inv.busyNotDone
  busyValid := by simpa using inv.busyValid
  progressBound := by simpa using inv.progressBound

/-- An accepted `RESIZE` starts at pixel 0 of at least one (41_commands.md R143). -/
theorem start (r : Regs) (h : validate sn = .accepted) :
    RegsInv { r with progress := 0, done := false, err := .none, busy := true } sn where
  errDone := absurd rfl
  busyNotDone _ := rfl
  busyValid _ := ⟨h, pixelCount_pos h⟩
  progressBound := Nat.zero_le _

/-- An ended command or operation reports with `DONE = 1` and an idle engine (60_exceptions.md R200). -/
theorem report (code : ErrCode) (h : r.progress.toNat ≤ pixelCount sn) :
    RegsInv { r with busy := false, done := true, err := code } sn where
  errDone _ := rfl
  busyNotDone := nofun
  busyValid := nofun
  progressBound := h

/-- Acknowledging clears `DONE` and `ERR` together (41_commands.md R145). -/
theorem acknowledge (inv : RegsInv r sn) :
    RegsInv { r with done := false, err := .none, ign := false } sn where
  errDone := absurd rfl
  busyNotDone _ := rfl
  busyValid := inv.busyValid
  progressBound := inv.progressBound

/-- Counting a pixel that is not the last leaves one to write (10_state.md R37). -/
theorem count (inv : RegsInv r sn) (busy : r.busy = true) (more : r.progress.toNat + 1 ≠ pixelCount sn) :
    RegsInv { r with progress := r.progress + 1 } sn := by
  obtain ⟨accepted, left⟩ := inv.busyValid busy
  have next := toNat_progress_succ left
  exact {
    errDone := inv.errDone
    busyNotDone := inv.busyNotDone
    busyValid := fun _ => ⟨accepted, by dsimp only; omega⟩
    progressBound := by dsimp only; omega }

/-- Every cause of a change keeps the invariant of the registers and the snapshot. -/
theorem of_change {s t : State} (inv : RegsInv s.regs s.snap) (change : RegsChange s t) :
    RegsInv t.regs t.snap := by
  cases change with
  | kept snap regs => rw [snap, regs]; exact inv
  | written reg w _ _ snap regs => rw [snap, regs]; exact inv.writeReg reg w
  | discarded _ _ _ _ _ snap regs =>
    rw [snap, regs]; exact ⟨inv.errDone, inv.busyNotDone, inv.busyValid, inv.progressBound⟩
  | started _ _ _ verdict snap regs => rw [snap, regs]; exact start _ verdict
  | declined code _ _ _ _ snap regs =>
    rw [snap, regs]; exact report (r := { s.regs with progress := 0 }) code (Nat.zero_le _)
  | acknowledged _ _ _ snap regs => rw [snap, regs]; exact inv.acknowledge
  | illegal _ _ _ _ _ snap regs => rw [snap, regs]; exact report _ inv.progressBound
  | counted _ _ busy _ _ _ more snap regs => rw [snap, regs]; exact inv.count busy more
  | completed _ _ _ valid _ _ last snap regs =>
    have next := toNat_progress_succ (validOperation_iff.1 valid).2
    rw [snap, regs]
    exact report (r := { s.regs with progress := s.regs.progress + 1 }) _ (next.trans last).le
  | failed _ _ snap regs => rw [snap, regs]; exact report _ inv.progressBound
  | reset _ regs => rw [regs]; exact reset _

end RegsInv

/-- Settles O28: the registers and the snapshot by the cause of their change, memory by its canonical form,
and reset by whether the step asserts it. -/
theorem stepKeepsInvariant : Obligations.StepKeepsInvariant := fun _ _ inv h =>
  (inv.regsInv.of_change (step_regsChange h)).inv (step_keeps_wf h inv.memWf) (step_keeps_heldReset inv h)

/-! ## The engine reads the snapshot and not the configuration (10_state.md R36, R241) -/

/-- The state with the configuration registers and `CTRL` of `r`. -/
def State.withConfigOf (s : State) (r : Regs) : State := { s with regs := r.withStatusOf s.regs }

/-- Registers with the state's own `STATUS` and `PROGRESS` replace its configuration alone. -/
theorem withConfigOf_eq {s : State} {r : Regs} (busy : r.busy = s.regs.busy) (done : r.done = s.regs.done)
    (ign : r.ign = s.regs.ign) (err : r.err = s.regs.err) (progress : r.progress = s.regs.progress) :
    { s with regs := r } = s.withConfigOf r := by
  rw [State.withConfigOf, Regs.withStatusOf, ← busy, ← done, ← ign, ← err, ← progress]

/-- Change the next state that an outcome answers, if it answers one. -/
def mapNext (f : State → State) : Host.Outcome State Fault Refusal → Host.Outcome State Fault Refusal
  | .next t => .next (f t)
  | .fault stop => .fault stop
  | .refused stop => .refused stop

theorem countPixel_withConfigOf (s : State) (r : Regs) :
    countPixel (s.withConfigOf r) = (countPixel s).withConfigOf r := by
  unfold countPixel
  rw [apply_ite (State.withConfigOf · r)]
  rfl

theorem writePixel_withConfigOf (q : Quad) (s : State) (r : Regs) :
    writePixel q (s.withConfigOf r) = (writePixel q s).withConfigOf r := by
  unfold writePixel
  rw [apply_ite (State.withConfigOf · r), ← countPixel_withConfigOf]
  rfl

/-- A `PIXEL_STEP` goes the same way whatever the configuration registers hold (10_state.md R36). -/
theorem pixelStep_withConfigOf (s : State) (r : Regs) :
    pixelStep (s.withConfigOf r) = mapNext (State.withConfigOf · r) (pixelStep s) := by
  have valid : validOperation (s.withConfigOf r) = validOperation s := rfl
  have bytes : pixelBytes (s.withConfigOf r).platform (s.withConfigOf r).mem (s.withConfigOf r).snap
      (s.withConfigOf r).regs.progress.toNat =
      pixelBytes s.platform s.mem s.snap s.regs.progress.toNat := rfl
  have extents : ordinaryExtents (s.withConfigOf r).platform (s.withConfigOf r).snap =
      ordinaryExtents s.platform s.snap := rfl
  unfold pixelStep
  rw [valid, extents, bytes]
  split_ifs
  · cases pixelBytes s.platform s.mem s.snap s.regs.progress.toNat with
    | some q => exact congrArg Host.Outcome.next (writePixel_withConfigOf q s r)
    | none => rfl
  · rfl
  · rfl

/-- So does the engine's turn, whether it is busy or idle. -/
theorem engineTurn_withConfigOf (s : State) (r : Regs) :
    engineTurn (s.withConfigOf r) = mapNext (State.withConfigOf · r) (engineTurn s) := by
  cases busy : s.regs.busy with
  | false => rw [engineTurn_idle busy]; exact engineTurn_idle busy
  | true =>
    have turn : ∀ u : State, u.regs.busy = true → engineTurn u = pixelStep u := fun u hu => if_pos hu
    rw [turn s busy, turn (s.withConfigOf r) busy, pixelStep_withConfigOf]

/-- Settles O49: the two turns have one outcome, up to each state's own configuration. -/
theorem configurationWritesDoNotReachOperation : Obligations.ConfigurationWritesDoNotReachOperation := by
  intro s r busy done ign err progress
  rw [withConfigOf_eq busy done ign err progress, engineTurn_withConfigOf]
  cases engineTurn s with
  | next t => exact ⟨rfl, rfl, rfl, rfl, rfl, rfl⟩
  | fault stop => exact rfl
  | refused stop => exact rfl

end Sys2Proof.Machine
end

section
/-! Proofs of the statements about 20_memory.md: the memory port's reads and byte lanes (R62, R63, R69), where
the operation's pixels lie (R64 to R67, R70), what a step can change in memory (R67, R170), and what the host
sees of the engine's writes (R71, R75, R76). -/

namespace Sys2Proof.Machine

/-! ## The memory port (20_memory.md R62, R63, R69) -/

theorem backedQuad_iff {p : Platform} {a : Nat} : backedQuad p a = true ↔
    backed p a = true ∧ backed p (a + 1) = true ∧ backed p (a + 2) = true ∧ backed p (a + 3) = true := by
  simp [backedQuad, and_assoc]

/-- Settles O32: `backedQuad` asks for the four addresses, and `loadQuad` is the four bytes in order. -/
theorem memReadAnswers : Obligations.MemReadAnswers := by
  intro p m a
  rw [memRead_eq]
  exact if_congr backedQuad_iff rfl rfl

/-- A byte below other lanes carries the low 8 bits. -/
theorem toNat_append_byte {n : Nat} (x : BitVec n) (b : Byte) :
    (x ++ b).toNat = b.toNat + 2 ^ 8 * x.toNat := by
  rw [BitVec.toNat_append, ← Nat.shiftLeft_add_eq_or_of_lt b.isLt, Nat.shiftLeft_eq]
  omega

/-- The bus word has the byte of the lowest address in its lowest lane (20_memory.md R69). -/
theorem toNat_toLanes (q : Quad) : (toLanes q).toNat =
    q.b0.toNat + 2 ^ 8 * q.b1.toNat + 2 ^ 16 * q.b2.toNat + 2 ^ 24 * q.b3.toNat := by
  simp only [toLanes, toNat_append_byte]
  omega

/-- Settles O33: the lanes' weights, and a store's bytes read back through the lanes they came from. -/
theorem byteLanes : Obligations.ByteLanes := fun q =>
  ⟨toNat_toLanes q, fun m a inside => by rw [loadQuad_storeLanes m _ inside, ofLanes_toLanes]⟩

/-! ## Where the pixels lie (20_memory.md R64 to R67, R70) -/

/-- The base index of a destination index in range is a source index (42_resize_datapath.md R162): the
mapped coordinate's numerator is less than `nSrc` times its denominator. -/
theorem axis_base_lt {i nNew nSrc : Nat} (hi : i < nNew) (hsrc : 0 < nSrc) :
    (axis i nNew nSrc).base < nSrc := by
  rw [axis_eq]
  apply Nat.div_lt_of_lt_mul
  calc (2 * i + 1) * nSrc - nNew ≤ (2 * i + 1) * nSrc := Nat.sub_le _ _
    _ < 2 * nNew * nSrc := Nat.mul_lt_mul_of_pos_right (by omega) hsrc

/-- The neighbour step stays inside the source (42_resize_datapath.md R163). -/
theorem axis_base_add_step_lt {i nNew nSrc : Nat} (hi : i < nNew) (hsrc : 0 < nSrc) :
    (axis i nNew nSrc).base + (axis i nNew nSrc).step < nSrc := by
  have base := axis_base_lt hi hsrc
  rw [axis_eq] at base ⊢
  dsimp only at base ⊢
  split_ifs <;> omega

/-- The scan position of a pixel is a column and a row of the destination (10_state.md R37). -/
theorem scan_inside {sn : Snapshot} {i : Nat} (hi : i < pixelCount sn) :
    scanX sn i < sn.dstW.toNat ∧ scanY sn i < sn.dstH.toNat :=
  ⟨Nat.mod_lt _ (Nat.pos_of_lt_mul_right hi), Nat.div_lt_of_lt_mul hi⟩

/-- A pixel of an accepted source is aligned and inside the source extent (20_memory.md R64, R66, R70). -/
theorem srcAddr_inside {sn : Snapshot} (accepted : validate sn = .accepted) {px py : Nat}
    (hx : px < sn.srcW.toNat) (hy : py < sn.srcH.toNat) :
    srcAddr sn px py % 4 = 0 ∧ sn.srcBase.toNat ≤ srcAddr sn px py ∧ srcAddr sn px py + 4 ≤ srcEnd sn := by
  obtain ⟨-, -, -, -, ⟨base, stride, -⟩, -, -⟩ := validate_accepted.1 accepted
  have rowAligned : py * sn.srcStride.toNat % 4 = 0 := by
    rw [Nat.mul_mod, stride, Nat.mul_zero, Nat.zero_mod]
  have rowBound : py * sn.srcStride.toNat ≤ (sn.srcH.toNat - 1) * sn.srcStride.toNat :=
    Nat.mul_le_mul_right _ (by omega)
  unfold srcAddr srcEnd
  omega

/-- Settles O34: both coordinates of a neighbour are source indices, since the axes stay inside. -/
theorem neighboursInsideSource : Obligations.NeighboursInsideSource := by
  intro sn i ex ey accepted hi hex hey
  obtain ⟨-, -, ⟨width, height⟩, -, -, ⟨srcFits, -⟩, -⟩ := validate_accepted.1 accepted
  obtain ⟨column, row⟩ := scan_inside hi
  have hx : (axisX sn i).base + ex < sn.srcW.toNat := by
    rcases hex with rfl | rfl
    · exact axis_base_lt column (toNat_pos_of_ne_zero width)
    · exact axis_base_add_step_lt column (toNat_pos_of_ne_zero width)
  have hy : (axisY sn i).base + ey < sn.srcH.toNat := by
    rcases hey with rfl | rfl
    · exact axis_base_lt row (toNat_pos_of_ne_zero height)
    · exact axis_base_add_step_lt row (toNat_pos_of_ne_zero height)
  obtain ⟨aligned, above, below⟩ := srcAddr_inside accepted hx hy
  exact ⟨hx, hy, aligned, above, below, srcFits⟩

/-- Pixel `(x, y)` is the `(y*DST_W + x)`-th of the scan (10_state.md R37). -/
theorem scanIndex_lt {sn : Snapshot} {x y : Nat} (hx : x < sn.dstW.toNat) (hy : y < sn.dstH.toNat) :
    y * sn.dstW.toNat + x < pixelCount sn :=
  calc y * sn.dstW.toNat + x < (y + 1) * sn.dstW.toNat := by rw [Nat.succ_mul]; omega
    _ ≤ sn.dstH.toNat * sn.dstW.toNat := Nat.mul_le_mul_right _ hy
    _ = pixelCount sn := Nat.mul_comm _ _

theorem scanIndex_injective {w x y x' y' : Nat} (hx : x < w) (hx' : x' < w)
    (same : y' * w + x' = y * w + x) : (x', y') = (x, y) := by
  have column : x' = x := by
    simpa [Nat.mod_eq_of_lt hx, Nat.mod_eq_of_lt hx'] using congrArg (· % w) same
  have row : y' * w = y * w := by omega
  rw [column, Nat.eq_of_mul_eq_mul_right (by omega) row]

/-- A pixel lies in the destination extent (20_memory.md R65, R67). -/
theorem pixelAddr_in_extent {sn : Snapshot} {i : Nat} (hi : i < pixelCount sn) :
    dstStart sn ≤ pixelAddr sn i ∧ pixelAddr sn i + 4 ≤ dstEnd sn := by
  rw [pixelAddr_eq, dstEnd_eq]
  omega

/-- Settles O35: pixels are numbered by the scan, four bytes each from an aligned base, and the accepted
extents are disjoint. -/
theorem destinationPixelsPacked : Obligations.DestinationPixelsPacked := by
  intro sn x y accepted hx hy
  obtain ⟨-, -, -, -, ⟨-, -, aligned⟩, ⟨-, fits⟩, apart⟩ := validate_accepted.1 accepted
  have place : pixelAddr sn (y * sn.dstW.toNat + x) = dstAddr sn x y := pixelAddr_eq sn _
  obtain ⟨above, below⟩ := pixelAddr_in_extent (scanIndex_lt hx hy)
  rw [place] at above below
  refine ⟨place, ?_, above, below, fits, by omega, fun x' y' hx' _ other => ?_⟩
  · unfold dstAddr; omega
  · have distinct : y' * sn.dstW.toNat + x' ≠ y * sn.dstW.toNat + x :=
      fun same => other (scanIndex_injective hx hx' same)
    unfold dstAddr
    omega

/-! ## What a step changes in memory (20_memory.md R67, R170; 70_reset_and_hazards.md R236, R237) -/

theorem inDestination_eq_false {sn : Snapshot} {a : Nat} :
    inDestination sn a = false ↔ a < dstStart sn ∨ dstEnd sn ≤ a := by
  simp [inDestination, or_iff_not_imp_left]

/-- Writing a pixel, or failing to, changes no byte but its four (20_memory.md R63). -/
theorem read_writePixel_other (q : Quad) (s : State) {a : Nat}
    (ha : a < pixelAddr s.snap s.regs.progress.toNat ∨ pixelAddr s.snap s.regs.progress.toNat + 4 ≤ a) :
    (writePixel q s).mem.read a = s.mem.read a := by
  rcases writePixel_cases q s with ⟨-, -, hw⟩ | ⟨-, -, hw⟩ | ⟨-, hw⟩ <;> rw [hw]
  · exact read_storeLanes_other _ _ ha
  · exact read_storeLanes_other _ _ ha
  · exact read_fillFree_other _ _ ha

/-- The engine's write of a pixel left to it changes no byte outside the destination extent. -/
theorem read_writePixel_outside (q : Quad) {s : State} (valid : validOperation s = true) {a : Nat}
    (ha : inDestination s.snap a = false) : (writePixel q s).mem.read a = s.mem.read a := by
  obtain ⟨above, below⟩ := pixelAddr_in_extent (validOperation_iff.1 valid).2
  apply read_writePixel_other
  rcases inDestination_eq_false.1 ha with before | after
  · exact .inl (by omega)
  · exact .inr (by omega)

/-- Asserting reset changes no byte of an idle machine, nor one outside the running operation's destination
extent (70_reset_and_hazards.md R236, R237). -/
theorem read_assertReset_outside {s : State} {a : Nat}
    (ha : s.regs.busy = false ∨ inDestination s.snap a = false) :
    (assertReset s).mem.read a = s.mem.read a := by
  show (spoilDestination s).mem.read a = s.mem.read a
  unfold spoilDestination
  split_ifs with busy
  · have outside := inDestination_eq_false.1 (ha.resolve_left (by simp [busy]))
    rw [dstEnd_eq] at outside
    exact read_fillFree_other _ _ outside
  · rfl

/-- Settles O50, by what a step can be: of those that are no agent's write only the engine's write of a pixel
and an asserted reset change memory. -/
theorem memoryChangesOnlyInDestination : Obligations.MemoryChangesOnlyInDestination := by
  intro s t a _ h noAgent ha
  obtain ⟨rest, -, hcases⟩ := step_cases h
  rcases hcases with ⟨q, -, busy, valid, -, -, rfl⟩ | ⟨-, -, -, -, -, rfl⟩ | ⟨-, -, rfl⟩ |
    ⟨e, -, -, hport⟩ | ⟨agent, i, lanes, q, writes, -, -⟩ | ⟨i, -, -, rfl⟩ | ⟨-, -, rfl⟩ | ⟨-, rfl⟩ |
    ⟨-, rfl⟩
  · exact read_writePixel_outside (s := { s with inputs := rest }) q valid (ha.resolve_left (by simp [busy]))
  · rfl
  · rfl
  · rw [(runEncoded_mem_inReset hport).1]
  · exact absurd writes (noAgent agent i lanes q rest)
  · rw [hostRead_mem]
  · rw [takeInterrupt_mem]
  · exact read_assertReset_outside (s := { s with inputs := rest }) ha
  · rfl

/-! ## The record of unshown writes (20_memory.md R75) -/

/-- Showing the host the counted pixels puts no write on record. -/
theorem showWritten_stale_subset (s : State) : (showWritten s).stale ⊆ s.stale :=
  List.filter_subset_self _

theorem orderRead_stale_subset (reg : Reg) (s : State) : (orderRead reg s).stale ⊆ s.stale := by
  unfold orderRead
  split
  · exact showWritten_stale_subset s
  · split
    · exact showWritten_stale_subset s
    · exact List.Subset.refl _
  · exact List.Subset.refl _

theorem takeInterrupt_stale_subset (s : State) : (takeInterrupt s).stale ⊆ s.stale := by
  unfold takeInterrupt
  split
  · exact showWritten_stale_subset s
  · exact List.Subset.refl _

/-- No input of the register port puts a write on record. -/
theorem runEncoded_stale_subset {e : Encoded} {s t : State} (h : runEncoded e s = .next t) :
    t.stale ⊆ s.stale := by
  rcases runEncoded_cases e s with ⟨reg, -, hread⟩ | ⟨reg, w, -, -, hwrite⟩ | ⟨w, -, hcommand⟩ |
    ⟨write, -, hinvalid⟩
  · cases hread.symm.trans h; exact orderRead_stale_subset reg s
  · cases hwrite.symm.trans h; exact List.Subset.refl _
  · cases hcommand.symm.trans h
    obtain ⟨-, -, hstale, -⟩ := command_frame w s
    rw [respond_stale, hstale]
    exact List.Subset.refl _
  · cases hinvalid.symm.trans h; exact List.Subset.refl _

/-- Writing a pixel puts on record its own write, which it counts, or nothing. -/
theorem writePixel_stale (q : Quad) (s : State) :
    ((writePixel q s).stale = ⟨pixelAddr s.snap s.regs.progress.toNat,
        loadQuad s.mem (pixelAddr s.snap s.regs.progress.toNat)⟩ :: s.stale ∧
      (writePixel q s).regs.progress = s.regs.progress + 1) ∨
    (writePixel q s).stale = s.stale := by
  rcases writePixel_cases q s with ⟨-, -, hw⟩ | ⟨-, -, hw⟩ | ⟨-, hw⟩ <;> rw [hw]
  · exact .inl ⟨rfl, rfl⟩
  · exact .inl ⟨rfl, rfl⟩
  · exact .inr rfl

/-- Settles O57, by what a step can be: only the engine's write of a pixel puts an address on record, its
own, and an agent's write keeps the recorded addresses. -/
theorem shownPixelsStayShown : Obligations.ShownPixelsStayShown := by
  intro s t a h shown
  have kept : t.stale ⊆ s.stale → ∀ v ∈ t.stale, v.addr ≠ a := fun sub v hv => shown v (sub hv)
  obtain ⟨rest, -, hcases⟩ := step_cases h
  rcases hcases with ⟨q, -, busy, -, -, -, rfl⟩ | ⟨-, -, -, -, -, rfl⟩ | ⟨-, -, rfl⟩ |
    ⟨e, -, -, hport⟩ | ⟨agent, i, lanes, q, -, -, rfl⟩ | ⟨i, -, -, rfl⟩ | ⟨-, -, rfl⟩ | ⟨-, rfl⟩ |
    ⟨-, rfl⟩
  · rcases writePixel_stale q { s with inputs := rest } with ⟨stale, counted⟩ | stale
    · by_cases ha : a = pixelAddr s.snap s.regs.progress.toNat
      · exact .inr ⟨busy, ha, counted⟩
      · rw [stale]
        exact .inl (List.forall_mem_cons.2 ⟨fun own => ha own.symm, shown⟩)
    · rw [stale]; exact .inl shown
  · exact .inl shown
  · exact .inl shown
  · exact .inl (kept (runEncoded_stale_subset (s := { s with inputs := rest }) hport))
  · have addrs := (agentWrite_keeps { s with inputs := rest } i lanes q).2
    refine .inl fun v hv own => ?_
    obtain ⟨w, hw, hwv⟩ := List.mem_map.1 (addrs ▸ List.mem_map_of_mem hv)
    exact shown w hw (hwv.trans own)
  · rw [hostRead_stale]; exact .inl shown
  · exact .inl (kept (takeInterrupt_stale_subset _))
  · rw [assertReset_stale]; exact .inl shown
  · exact .inl shown

/-! ## What a host read returns (20_memory.md R71, R75; 70_reset_and_hazards.md R243) -/

/-- While reset is not held a host read completes (70_reset_and_hazards.md R235). -/
theorem takeInput_memRead (i : BitVec 30) {s : State} (running : s.inReset = false) :
    takeInput (.memRead i) s = .next (hostRead i s) :=
  takeHostStep_eq_next.2 ⟨running, rfl⟩

/-- A host read of four backed bytes returns one of the visible values. -/
theorem hostRead_visible {i : BitVec 30} {s : State} (hb : backedQuad s.platform (4 * i.toNat) = true) :
    ∃ q ∈ visibleQuads (4 * i.toNat) s, (hostRead i s).hostData = some q := by
  have data : (hostRead i s).hostData = some ((visibleQuads (4 * i.toNat) s).getD
      (Config.freeChoice s.freeCount % (visibleQuads (4 * i.toNat) s).length)
      (loadQuad s.mem (4 * i.toNat))) := by
    unfold hostRead; rw [if_pos hb]
  have choice : Config.freeChoice s.freeCount % (visibleQuads (4 * i.toNat) s).length <
      (visibleQuads (4 * i.toNat) s).length := Nat.mod_lt _ (by simp [visibleQuads])
  rw [List.getD_eq_getElem _ _ choice] at data
  exact ⟨_, List.getElem_mem choice, data⟩

/-- A host read of four bytes that are not all backed returns nothing (log entry 17). -/
theorem hostRead_unbacked {i : BitVec 30} {s : State} (hb : backedQuad s.platform (4 * i.toNat) = false) :
    (hostRead i s).hostData = none := by
  unfold hostRead; rw [if_neg (by simp [hb])]

/-- Settles O56: a host read answers one of the visible values, of which there are three kinds, and changes
only its data. -/
theorem hostReadsWholePixels : Obligations.HostReadsWholePixels := by
  intro s i running
  refine ⟨hostRead i s, takeInput_memRead i running, fun hb => ?_, hostRead_unbacked, hostRead_regs s i,
    hostRead_mem s i, hostRead_snap s i, hostRead_stale s i, hostRead_conflict s i, hostRead_response s i⟩
  obtain ⟨q, visible, data⟩ := hostRead_visible hb
  refine ⟨q, data, ?_⟩
  rcases mem_visibleQuads.1 visible with held | old | early
  · exact .inl held
  · exact .inr (.inl old)
  · exact .inr (.inr (earlyResult_eq_some early))

/-- A host read of a counted pixel with no unshown write on record returns what memory holds. -/
theorem hostRead_shown {i : BitVec 30} {s : State} {j : Nat} (counted : j < s.regs.progress.toNat)
    (place : 4 * i.toNat = pixelAddr s.snap j) (hb : backedQuad s.platform (4 * i.toNat) = true)
    (shown : ∀ v ∈ s.stale, v.addr ≠ 4 * i.toNat) :
    (hostRead i s).hostData = some (loadQuad s.mem (4 * i.toNat)) := by
  obtain ⟨q, visible, data⟩ := hostRead_visible hb
  rcases mem_visibleQuads.1 visible with rfl | ⟨v, hv, own, -⟩ | early
  · exact data
  · exact absurd own (shown v hv)
  · rw [place, earlyResult_counted counted] at early; cases early

/-- Once the host is shown the counted pixels none of their writes is on record (20_memory.md R75). -/
theorem showWritten_shows {s : State} {j : Nat} (counted : j < s.regs.progress.toNat) :
    ∀ v ∈ (showWritten s).stale, v.addr ≠ pixelAddr s.snap j := by
  intro v hv own
  have outside := (List.mem_filter.1 hv).2
  rw [own, pixelAddr_eq] at outside
  simp [dstStart, counted] at outside

/-- Each of the three events that order the host's view shows it the counted pixels and changes nothing else
but the port's answer (20_memory.md R75 items 3 and 4). -/
theorem orderingEvent_shows {s t : State}
    (event : exec (.mmioRd .progress) s = .next t ∨
      (exec (.mmioRd .status) s = .next t ∧ reportsOperation s.regs = true) ∨
      (takeInput .irqTaken s = .next t ∧ irq s = true ∧ reportsOperation s.regs = true)) :
    ∃ r, t = respond r (showWritten s) := by
  rcases event with progress | ⟨status, reports⟩ | ⟨taken, high, reports⟩
  · exact ⟨_, (Host.Outcome.next.inj ((exec_mmioRd .progress s).symm.trans progress)).symm⟩
  · have read := Host.Outcome.next.inj ((exec_mmioRd .status s).symm.trans status)
    exact ⟨_, read.symm.trans (congrArg _ (if_pos reports))⟩
  · obtain ⟨-, rfl⟩ := takeHostStep_eq_next.1 taken
    exact ⟨s.response, if_pos (by simp [high, reports])⟩

/-- Settles O55: after the event no unshown write of a counted pixel is on record, and such a pixel has no
early result, so memory's value is the only visible one. -/
theorem shownPixelsReadAsWritten : Obligations.ShownPixelsReadAsWritten := by
  intro s t i j running event counted place hb
  obtain ⟨r, rfl⟩ := orderingEvent_shows event
  have shown : ∀ v ∈ (showWritten s).stale, v.addr ≠ 4 * i.toNat := place ▸ showWritten_shows counted
  exact ⟨rfl, hostRead i _, takeInput_memRead i running,
    hostRead_shown (s := respond r (showWritten s)) counted place hb shown, hostRead_mem _ i⟩

end Sys2Proof.Machine
end

section
/-! Proofs of the statements about 30_encoding.md: the register select (R95), the valid headers and what the
others do (R93, R94, R122), decode and encode, and what an encoded input runs (R90, R92). -/

namespace Sys2Proof.Machine

/-! ## Register select (30_encoding.md R95) -/

/-- Each `PADDR[5:2]` selects a register that the same index selects. -/
theorem index_ofIndex : ∀ k : BitVec 4, (Reg.ofIndex k).index = k := by decide

theorem wf_ofIndex : ∀ k : BitVec 4, (Reg.ofIndex k).wf = true := by decide

theorem ofIndex_reserved : ∀ k : BitVec 4, 11#4 ≤ k → Reg.ofIndex k = .reserved k := by decide

theorem ofIndex_index {reg : Reg} (h : reg.wf = true) : Reg.ofIndex reg.index = reg := by
  cases reg with
  | reserved k => exact ofIndex_reserved k (of_decide_eq_true h)
  | _ => rfl

/-! ## Transaction headers (30_encoding.md R93, R94) -/

/-- The register index of a header is its bits 5..2. -/
theorem headerAddr_index (h : BitVec 9) : (headerAddr h).extractLsb' 2 4 = h.extractLsb' 2 4 :=
  BitVec.extractLsb'_extractLsb'_of_le (by decide)

theorem headerValid_iff (h : BitVec 9) :
    headerValid h = true ↔ h.extractLsb' 6 2 = 2#2 ∧ h.extractLsb' 0 2 = 0#2 := by
  simp [headerValid, headerSize, headerAddr, BitVec.extractLsb'_extractLsb'_of_le]

/-- A header is its four fields in order. -/
theorem header_eq_fields (h : BitVec 9) : BitVec.ofBool (headerWrite h) ++ h.extractLsb' 6 2 ++
    (h.extractLsb' 2 4 ++ h.extractLsb' 0 2) = h := by
  have bit : BitVec.ofBool (headerWrite h) = h.extractLsb' 8 1 := by
    ext i hi
    simp [headerWrite, Nat.lt_one_iff.1 hi]
  calc BitVec.ofBool (headerWrite h) ++ h.extractLsb' 6 2 ++ (h.extractLsb' 2 4 ++ h.extractLsb' 0 2)
    _ = h.extractLsb' 8 1 ++ h.extractLsb' 6 2 ++ (h.extractLsb' 2 4 ++ h.extractLsb' 0 2) := by rw [bit]
    _ = h.extractLsb' 6 3 ++ h.extractLsb' 0 6 := congrArg₂ (· ++ ·)
      (BitVec.extractLsb'_append_extractLsb'_eq_extractLsb' rfl)
      (BitVec.extractLsb'_append_extractLsb'_eq_extractLsb' rfl)
    _ = h.extractLsb' 0 9 := BitVec.extractLsb'_append_extractLsb'_eq_extractLsb' rfl
    _ = h := BitVec.extractLsb'_eq_self

/-- A valid header is the encoded header of its own direction and register. -/
theorem encodeHeader_of_valid {h : BitVec 9} (hv : headerValid h = true) :
    encodeHeader (headerWrite h) (Reg.ofIndex (h.extractLsb' 2 4)) = h := by
  obtain ⟨size, align⟩ := (headerValid_iff h).1 hv
  rw [encodeHeader, Reg.offset, index_ofIndex, ← size, ← align]
  exact header_eq_fields h

/-- Every encoded header is valid, with the direction and the register index it was made of. -/
theorem encodeHeader_fields (write : Bool) (reg : Reg) :
    headerValid (encodeHeader write reg) = true ∧ headerWrite (encodeHeader write reg) = write ∧
      (encodeHeader write reg).extractLsb' 2 4 = reg.index := by
  have fields : ∀ (b : Bool) (k : BitVec 4), let h : BitVec 9 := BitVec.ofBool b ++ 2#2 ++ (k ++ 0#2)
      headerValid h = true ∧ headerWrite h = b ∧ h.extractLsb' 2 4 = k := by decide
  exact fields write reg.index

/-- The header of register index `k` written out from R93. -/
theorem encodeHeader_ofIndex : ∀ (write : Bool) (k : BitVec 4),
    encodeHeader write (Reg.ofIndex k) = BitVec.ofBool write ++ 2#2 ++ k ++ 0#2 := by decide

/-- The opcode table's mask 0x1C3 keeps every bit that makes a header valid. -/
theorem headerValid_masked (h : BitVec 9) : headerValid (h &&& 0x1C3#9) = headerValid h := by
  have ones (x : BitVec 2) : x &&& 3#2 = x := BitVec.and_allOnes
  rw [Bool.eq_iff_iff, headerValid_iff, headerValid_iff]
  simp [BitVec.extractLsb'_and, ones]

theorem headerWrite_masked (h : BitVec 9) : headerWrite (h &&& 0x1C3#9) = headerWrite h := by
  simp [headerWrite]

/-- The mask 0x1C3 tells the valid reads and writes from all other headers. -/
theorem masked_eq_iff (h : BitVec 9) (write : Bool) :
    h &&& 0x1C3#9 = (if write then 0x180#9 else 0x080#9) ↔ headerValid h = true ∧ headerWrite h = write := by
  constructor
  · intro masked
    rw [← headerValid_masked, ← headerWrite_masked, masked]
    cases write <;> decide
  · rintro ⟨hv, rfl⟩
    have fixed := Laws.TableRow.encodeHeader_fixed (headerWrite h) (Reg.ofIndex (h.extractLsb' 2 4))
    rwa [encodeHeader_of_valid hv] at fixed

/-! ## Decode and encode (30_encoding.md R92 to R95) -/

/-- A valid transaction decodes to the read or write of its register. -/
theorem decode_valid {h : BitVec 9} (hv : headerValid h = true) (d : Word) :
    decode (.transaction h d) = .ok (if headerWrite h then .mmioWr (Reg.ofIndex (h.extractLsb' 2 4)) d
      else .mmioRd (Reg.ofIndex (h.extractLsb' 2 4))) := by
  rw [decode, decodeTransaction, headerAddr_index, if_pos hv, apply_ite Except.ok]

theorem decode_invalid {h : BitVec 9} (hv : headerValid h = false) (d : Word) :
    decode (.transaction h d) = .error (.invalidTransaction (headerWrite h)) := by
  simp [decode, decodeTransaction, hv]

/-- Whatever write data stands beside it, a register's header decodes to that register. -/
theorem decode_encodeHeader {reg : Reg} (hr : reg.wf = true) (write : Bool) (d : Word) :
    decode (.transaction (encodeHeader write reg) d) =
      .ok (if write then .mmioWr reg d else .mmioRd reg) := by
  obtain ⟨valid, direction, index⟩ := encodeHeader_fields write reg
  rw [decode_valid valid, direction, index, ofIndex_index hr]

theorem decode_encode {i : Instr} (h : i.wf = true) : decode (encode i) = .ok i := by
  cases i with
  | mmioRd reg => exact decode_encodeHeader h false 0
  | mmioWr reg w => exact decode_encodeHeader h true w
  | nop => rfl
  | resize => rfl
  | clear => rfl

theorem encode_of_decode_transaction {h : BitVec 9} {d : Word} {i : Instr}
    (hd : decode (.transaction h d) = .ok i) :
    i.wf = true ∧ encode i = .transaction h (if headerWrite h then d else 0) := by
  cases hv : headerValid h with
  | false => cases (decode_invalid hv d).symm.trans hd
  | true =>
    have header := encodeHeader_of_valid hv
    cases (decode_valid hv d).symm.trans hd
    cases hw : headerWrite h <;> rw [hw] at header <;> simp [Instr.wf, encode, wf_ofIndex, header]

/-- A word that the opcode table does not list is illegal. -/
theorem decode_unlisted {w : Word} (h0 : w ≠ nopWord) (h1 : w ≠ resizeWord) (h2 : w ≠ clearWord) :
    decode (.command w) = .error (.illegalCommand w) := by
  simp [decode, decodeCommand, h0, h1, h2]

/-- A command word is the encoding of the instruction it decodes to, or is illegal. -/
theorem decode_command_cases (w : Word) :
    (∃ i, decode (.command w) = .ok i ∧ i.wf = true ∧ encode i = .command w) ∨
      decode (.command w) = .error (.illegalCommand w) := by
  by_cases h0 : w = nopWord
  · subst h0; exact .inl ⟨.nop, rfl, rfl, rfl⟩
  by_cases h1 : w = resizeWord
  · subst h1; exact .inl ⟨.resize, rfl, rfl, rfl⟩
  by_cases h2 : w = clearWord
  · subst h2; exact .inl ⟨.clear, rfl, rfl, rfl⟩
  exact .inr (decode_unlisted h0 h1 h2)

/-- Settles O1: the encoder builds a header of the register's own fields, and a header or word that decodes
is the encoder's. -/
theorem decodeAndEncodeAgree : Obligations.DecodeAndEncodeAgree := by
  refine ⟨fun i => decode_encode, fun e i hd => ?_⟩
  cases e with
  | transaction h d => exact encode_of_decode_transaction hd
  | command w =>
    obtain ⟨j, hj, wf, enc⟩ | herr := decode_command_cases w
    · cases hj.symm.trans hd; exact ⟨wf, enc⟩
    · cases herr.symm.trans hd

/-- Settles O3: the header of index `k` is the encoded header of the register that `k` selects. -/
theorem registerSelect : Obligations.RegisterSelect := by
  refine fun k d => ⟨Reg.ofIndex k, ?_, ?_, ?_⟩
  · exact encodeHeader_ofIndex false k ▸ decode_encodeHeader (wf_ofIndex k) false d
  · exact encodeHeader_ofIndex true k ▸ decode_encodeHeader (wf_ofIndex k) true d
  · revert k; decide

/-- Settles O4: the three listed words are the encoder's, and every other word is unlisted. -/
theorem commandWordDecode : Obligations.CommandWordDecode :=
  ⟨decode_encode (i := .nop) rfl, decode_encode (i := .resize) rfl, decode_encode (i := .clear) rfl,
    fun _ h0 h1 h2 => decode_unlisted h0 h1 h2⟩

/-- Settles O5: the transactions are the encoder's, and the decoder is evaluated on the table's words. -/
theorem writtenOutWordsDecode : Obligations.WrittenOutWordsDecode :=
  ⟨decode_encodeHeader (reg := .srcBase) rfl true 0x1000#32,
    decode_encodeHeader (reg := .status) rfl false 0#32,
    decode_encodeHeader (reg := .id) rfl false 0#32, rfl, rfl, rfl, rfl, rfl⟩

/-! ## What an encoded input runs (30_encoding.md R90, R94; 40_host_access.md R122) -/

/-- An invalid transaction is answered and changes nothing else (40_host_access.md R122). -/
theorem runEncoded_invalid {h : BitVec 9} (hv : headerValid h = false) (d : Word) (s : State) :
    runEncoded (.transaction h d) s = .next (invalidTransaction (headerWrite h) s) := by
  simp only [runEncoded, decode_invalid hv]

/-- Settles O2: a header matches its row's pattern exactly when it is valid, and an invalid one decodes to
the error whose effect is the answer alone. -/
theorem transactionDecode : Obligations.TransactionDecode := by
  intro h d s
  rw [← headerValid_iff, ← not_and_or, ← headerValid_iff, Bool.not_eq_true]
  refine ⟨fun hv => ⟨fun hw => ?_, fun hw => ?_⟩, fun hv => ⟨fun m => ?_, fun m => ?_, ?_, ?_⟩⟩
  · exact ⟨(masked_eq_iff h false).2 ⟨hv, hw⟩, (decode_valid hv d).trans (by rw [headerWrite, hw]; rfl)⟩
  · exact ⟨(masked_eq_iff h true).2 ⟨hv, hw⟩, (decode_valid hv d).trans (by rw [headerWrite, hw]; rfl)⟩
  · cases hv.symm.trans ((masked_eq_iff h false).1 m).1
  · cases hv.symm.trans ((masked_eq_iff h true).1 m).1
  · exact decode_invalid hv d
  · exact runEncoded_invalid hv d s

/-- A command word on the port does what `Command(w)` does and is answered OKAY (41_commands.md R140). -/
theorem runEncoded_command (w : Word) (s : State) :
    runEncoded (.command w) s = .next (respond (.okay none) (command w s)) := by
  obtain ⟨i, hd, -⟩ | hd := decode_command_cases w
  · exact (runEncoded_of_decode hd s).trans (command_of_decode hd s)
  · have idle : idleCommand w = illegalWord := by
      funext t; simp only [idleCommand, show decodeCommand w = _ from hd]
    simp only [runEncoded, hd, illegalCommand, command, idle]

/-- A write of the word to `CMD` does the same (40_host_access.md R121). -/
theorem runEncoded_writeCmd (w : Word) (s : State) :
    runEncoded (.transaction 0x180#9 w) s = .next (respond (.okay none) (command w s)) :=
  runEncoded_of_decode (decode_encodeHeader (reg := .cmd) rfl true w) s

/-- Settles O8: while reset is held the port takes neither, and otherwise both are `Command(w)`. -/
theorem writeToCmdIsItsCommandWord : Obligations.WriteToCmdIsItsCommandWord := by
  intro s w rest
  rw [step_cons rfl, step_cons rfl]
  simp only [takeInput, takePort, runEncoded_writeCmd, runEncoded_command]

/-- The bits of a table word are an encoded input that decodes to the instruction (log entry 4). -/
theorem decodeTableWord_eq_some {nbits w : Nat} {i : Instr} :
    decodeTableWord nbits w = some i ↔ ∃ e, tableEncoded nbits w = some e ∧ decode e = .ok i := by
  have held : ∀ r : Except DecodeError Instr, decoded? r = some i ↔ r = .ok i := by
    rintro (_ | _) <;> simp [decoded?]
  simp only [decodeTableWord, Option.bind_eq_some_iff, held]

/-- Settles O7: the placed input stands first with reset released, so the step runs what it decodes to. -/
theorem placedWordRunsNext : Obligations.PlacedWordRunsNext := by
  intro s nbits w i hword
  obtain ⟨e, place, hdec⟩ := decodeTableWord_eq_some.1 hword
  have placed : s.withFetchWord nbits w = placeEncoded e s := by
    simp only [State.withFetchWord, placeTableWord, place]
  rw [placed]
  exact stepRunsDecodedInstruction (placeEncoded e s) e s.inputs i rfl rfl hdec

end Sys2Proof.Machine
end

section
/-! Proofs of the statements about 40_host_access.md: what a register read answers (R120) and what a register
write stores (R121). -/

namespace Sys2Proof.Machine

/-! ## A register's header (30_encoding.md R93) -/

/-- A register's header is its direction's base plus the register's offset. -/
theorem encodeHeader_eq_add (write : Bool) (reg : Reg) :
    encodeHeader write reg = (if write then 0x180#9 else 0x080#9) + reg.offset.setWidth 9 := by
  have fields : ∀ (b : Bool) (k : BitVec 4), BitVec.ofBool b ++ 2#2 ++ (k ++ 0#2) =
      (if b then 0x180#9 else 0x080#9) + (k ++ 0#2).setWidth 9 := by decide
  exact fields write reg.index

/-- The header at a register's offset decodes to that register, whatever write data stands beside it. -/
theorem decode_offset {reg : Reg} (h : reg.wf = true) (write : Bool) (d : Word) :
    decode (.transaction ((if write then 0x180#9 else 0x080#9) + reg.offset.setWidth 9) d) =
      .ok (if write then .mmioWr reg d else .mmioRd reg) :=
  encodeHeader_eq_add write reg ▸ decode_encodeHeader h write d

/-! ## The word of a read (40_host_access.md R120) -/

/-- A field below others carries the low bits of the number. -/
theorem toNat_append_field {n m : Nat} (x : BitVec n) (y : BitVec m) :
    (x ++ y).toNat = y.toNat + 2 ^ m * x.toNat := by
  rw [BitVec.toNat_append, ← Nat.shiftLeft_add_eq_or_of_lt y.isLt, Nat.shiftLeft_eq, Nat.mul_comm,
    Nat.add_comm]

/-- Every bit of the status word outside `BUSY`, `DONE`, `IGN` and `ERR` is 0 (10_state.md R20). -/
theorem toNat_statusWord (r : Regs) : (statusWord r).toNat =
    r.busy.toNat + 2 * r.done.toNat + 4 * r.ign.toNat + 16 * r.err.code.toNat := by
  simp only [statusWord, toNat_append_field, BitVec.toNat_ofBool, BitVec.toNat_ofNat]
  omega

/-! ## What a read shows the host (20_memory.md R75) -/

/-- A read of any register but `STATUS` and `PROGRESS` shows the host nothing new. -/
theorem orderRead_other {reg : Reg} (status : reg ≠ .status) (progress : reg ≠ .progress) (s : State) :
    orderRead reg s = s := by
  cases reg with
  | status => exact absurd rfl status
  | progress => exact absurd rfl progress
  | _ => rfl

/-- A read changes the answer and the record of what the host has been shown, and nothing else. -/
theorem exec_mmioRd_frame (reg : Reg) (s : State) : exec (.mmioRd reg) s =
    .next { s with response := .okay (some (readReg s.regs reg)), stale := (orderRead reg s).stale } :=
  congrArg (fun t => Host.Outcome.next (respond (.okay (some (readReg s.regs reg))) t))
    (orderRead_frame s reg)

/-- Settles O11: the read answers `readReg`'s word, and `orderRead` only takes pixels off the record. -/
theorem registerReadAnswers : Obligations.RegisterReadAnswers := by
  intro reg s
  refine ⟨fun wf d => decode_offset wf false d, readReg s.regs reg, (orderRead reg s).stale,
    exec_mmioRd_frame reg s, fun status progress => ?_, fun _ hp => orderRead_stale_subset reg s hp, ?_⟩
  · rw [orderRead_other status progress]
  · cases reg with
    | status => exact toNat_statusWord s.regs
    | ctrl => exact (toNat_zero_append _).trans (BitVec.toNat_ofBool _)
    | format => exact toNat_zero_append _
    | _ => rfl

/-! ## What a write stores (40_host_access.md R121) -/

/-- Settles O12: a write of `CMD` submits its word, and a write of any other register is `writeReg`, which
sets that register's field or, for a read-only or reserved one, nothing. -/
theorem registerWriteStores : Obligations.RegisterWriteStores := by
  intro reg w s
  refine ⟨fun wf => decode_offset wf true w, ?_, fun other => ?_⟩
  · rintro rfl
    rfl
  · refine ⟨writeReg s.regs reg w, exec_mmioWr other w s, ?_⟩
    cases reg with
    | cmd => exact other rfl
    | _ => rfl

end Sys2Proof.Machine
end

section
/-! Proofs of the statements about 41_commands.md: what a command word does while the engine is busy (R141) and
while it is idle (R140, R142 to R146), and which of `RESIZE`'s checks decides (R143). -/

namespace Sys2Proof.Machine

/-! ## A submitted command word (41_commands.md R140, R141) -/

/-- A write of `CMD` submits its word (40_host_access.md R121). -/
theorem exec_writeCmd (w : Word) (s : State) :
    exec (.mmioWr .cmd w) s = .next (respond (.okay none) (command w s)) := rfl

/-- The word of a listed command does, written to `CMD`, what the command does (41_commands.md R140). -/
theorem exec_writeCmd_of_decode {w : Word} {i : Instr} (h : decodeCommand w = .ok i) (s : State) :
    exec (.mmioWr .cmd w) s = exec i s :=
  (exec_writeCmd w s).trans (command_of_decode h s).symm

theorem discardCommand_eq (w : Word) (s : State) : discardCommand w s =
    { s with regs := if w = 0#32 then s.regs else { s.regs with ign := true } } := by
  unfold discardCommand
  by_cases h : w = 0#32
  · rw [if_neg (not_not.2 h), if_pos h]
  · rw [if_pos h, if_neg h]

theorem command_busy (w : Word) {s : State} (busy : s.regs.busy = true) : command w s =
    { s with regs := if w = 0#32 then s.regs else { s.regs with ign := true } } :=
  (submit_busy w _ busy).trans (discardCommand_eq w s)

/-- While idle a word that the opcode table does not list is illegal (30_encoding.md R92). -/
theorem command_unlisted {w : Word} {s : State} (idle : s.regs.busy = false) (h0 : w ≠ nopWord)
    (h1 : w ≠ resizeWord) (h2 : w ≠ clearWord) : command w s = illegalWord s := by
  rw [command, submit_idle w _ idle, idleCommand_eq, if_neg h0, if_neg h1, if_neg h2]

/-- A command that ends without an operation leaves `BUSY` at 0 (60_exceptions.md R200). -/
theorem endOperation_idle (code : ErrCode) {s : State} (idle : s.regs.busy = false) :
    endOperation code s = { s with regs := { s.regs with done := true, err := code } } := by
  rw [endOperation, ← idle]

/-- Settles O14: the three commands are the words 0, 1 and 2 written to `CMD`, and a busy engine discards the
word. -/
theorem commandWhileBusy : Obligations.CommandWhileBusy := by
  intro w s busy
  have discarded (v : Word) : exec (.mmioWr .cmd v) s = .next { s with
      response := .okay none
      regs := if v = 0#32 then s.regs else { s.regs with ign := true } } := by
    rw [exec_writeCmd, command_busy v busy]; rfl
  refine ⟨discarded w, ?_, ?_, ?_⟩
  · exact (exec_writeCmd_of_decode (i := .nop) rfl s).symm.trans (discarded nopWord)
  · exact (exec_writeCmd_of_decode (i := .resize) rfl s).symm.trans (discarded resizeWord)
  · exact (exec_writeCmd_of_decode (i := .clear) rfl s).symm.trans (discarded clearWord)

/-- Settles O15: the listed words decode to their commands, and any other word ends with `ILLEGAL_CMD`. -/
theorem commandWhileIdle : Obligations.CommandWhileIdle := by
  intro w s idle
  refine ⟨?_, ?_, ?_, fun h0 h1 h2 => ⟨?_, ?_, ?_⟩⟩
  · rintro rfl; exact exec_writeCmd_of_decode (i := .nop) rfl s
  · rintro rfl; exact exec_writeCmd_of_decode (i := .resize) rfl s
  · rintro rfl; exact exec_writeCmd_of_decode (i := .clear) rfl s
  · rw [exec_writeCmd, command_unlisted idle h0 h1 h2, illegalWord, endOperation_idle .illegalCmd idle]
    rfl
  · exact Bool.and_true s.regs.irqEn
  · rw [runEncoded_command, exec_writeCmd]

/-! ## `NOP` and `CLEAR` (41_commands.md R142, R145) -/

/-- `NOP` needs no idle engine: a busy one does not set `IGN` for it (41_commands.md R141, R142). -/
theorem submit_nop (s : State) : submit nopWord (fun t => t) s = s := by
  cases h : s.regs.busy with
  | true => exact submit_busy nopWord _ h
  | false => exact submit_idle nopWord _ h

/-- Settles O16: the submitted word changes nothing, so only the port's answer changes, which `IRQ` does not
read. -/
theorem nopHasNoEffect : Obligations.NopHasNoEffect := by
  refine ⟨decode_encode (i := .nop) rfl, fun s => ⟨?_, rfl⟩⟩
  exact congrArg (fun t => Host.Outcome.next (respond (.okay none) t)) (submit_nop s)

/-- An acknowledged report no longer interrupts (60_exceptions.md R205). -/
theorem irq_acknowledge (s : State) : irq (acknowledge s) = false := Bool.and_false s.regs.irqEn

/-- Settles O17: idle, `CLEAR` is `acknowledge`, and a busy engine discards it. -/
theorem clearAcknowledges : Obligations.ClearAcknowledges := by
  refine ⟨decode_encode (i := .clear) rfl, fun s => ⟨_, rfl, fun idle => ?_, fun busy => ?_⟩⟩
  · rw [submit_idle clearWord acknowledge idle]
    exact ⟨irq_acknowledge s, rfl⟩
  · rw [submit_busy clearWord acknowledge busy]
    rfl

/-! ## `RESIZE` (41_commands.md R143) -/

/-- Settles O18, by how the taken `RESIZE` goes on: only an accepted one leaves `BUSY` at 1, and every other
ends with `DONE` and its code. -/
theorem resizeStarts : Obligations.ResizeStarts := by
  intro s idle
  have taken : exec .resize s = .next (respond (.okay none) (startResize s)) :=
    congrArg (fun t => Host.Outcome.next (respond (.okay none) t)) (submit_idle resizeWord startResize idle)
  rw [taken]
  rcases startResize_cases s with ⟨verdict, start⟩ | ⟨verdict, start⟩ | ⟨code, verdict, start⟩ <;>
    rw [start, verdict] <;> rfl

/-- The checks on the numbers of the snapshot (41_commands.md R143 steps 1 to 7). -/
theorem validate_eq (sn : Snapshot) : validate sn =
    if sn.fmt.toNat = 3 then .rejected .format
    else if sn.dstW.toNat = 0 ∨ sn.dstH.toNat = 0 then .empty
    else if sn.srcW.toNat = 0 ∨ sn.srcH.toNat = 0 then .rejected .emptySrc
    else if sn.srcStride.toNat < 4 * sn.srcW.toNat then .rejected .stride
    else if sn.srcBase.toNat % 4 ≠ 0 ∨ sn.srcStride.toNat % 4 ≠ 0 ∨ sn.dstBase.toNat % 4 ≠ 0 then
      .rejected .align
    else if srcEnd sn > 2 ^ 32 ∨ dstEnd sn > 2 ^ 32 then .rejected .range
    else if sn.srcBase.toNat < dstEnd sn ∧ sn.dstBase.toNat < srcEnd sn then .rejected .overlap
    else .accepted := by
  unfold validate
  simp only [BitVec.toNat_eq]
  rfl

/-- Settles O19: each outcome stands at one place of the chain of checks, so the answer is that outcome exactly
when its check holds and none before it does. -/
theorem resizeChecksInOrder : Obligations.ResizeChecksInOrder := by
  intro sn
  dsimp only
  rw [validate_eq]
  refine ⟨?format, ?empty, ?emptySrc, ?stride, ?align, ?range, ?overlap, ?accepted⟩ <;>
    simp only [ite_eq_iff, reduceCtorEq, Verdict.rejected.injEq, and_true, and_false, or_false, false_or] <;>
    rfl

end Sys2Proof.Machine
end

section
/-! Proofs of the statements about the datapath of 42_resize_datapath.md: the coordinate mapping (R160 to
R163), the blend and the alpha rule (R167 to R169, R171), a destination pixel's bytes (R164 to R166), and the
laws that follow (R172, R173). -/

namespace Sys2Proof.Machine

/-! ## Coordinate mapping (42_resize_datapath.md R160 to R163) -/

/-- Exact division: the quotient plus the remainder over the divisor. -/
theorem cast_div_add_cast_mod_div (n : Nat) {d : Nat} (hd : 0 < d) :
    ((n / d : Nat) : ℚ) + ((n % d : Nat) : ℚ) / (d : ℚ) = (n : ℚ) / d := by
  have nonzero : (d : ℚ) ≠ 0 := Nat.cast_ne_zero.2 hd.ne'
  have whole : (d : ℚ) * ((n / d : Nat) : ℚ) + ((n % d : Nat) : ℚ) = n := by
    exact_mod_cast Nat.div_add_mod n d
  rw [← whole]
  field_simp

/-- Subtraction on natural numbers is the exact difference, or 0 where that is negative. -/
theorem cast_sub_eq_max (a b : Nat) : ((a - b : Nat) : ℚ) = max 0 ((a : ℚ) - b) := by
  rcases Nat.le_total a b with small | large
  · rw [Nat.sub_eq_zero_of_le small, max_eq_left (sub_nonpos.2 (Nat.cast_le.2 small)), Nat.cast_zero]
  · rw [Nat.cast_sub large, max_eq_right (sub_nonneg.2 (Nat.cast_le.2 large))]

/-- Settles O36: the mapped coordinate is the numerator of R161 over `2*n_new`, clamped at 0, and that is the
source's formula. -/
theorem axisIsSourceFormula : Obligations.AxisIsSourceFormula := by
  intro i nNew nSrc hNew
  have nonzero : (nNew : ℚ) ≠ 0 := Nat.cast_ne_zero.2 hNew.ne'
  have formula : (((2 * i + 1) * nSrc : Nat) - nNew : ℚ) / (2 * nNew : Nat) =
      ((i : ℚ) + 1 / 2) / nNew * nSrc - 1 / 2 := by
    push_cast; field_simp
  rw [axis_eq]
  dsimp only
  rw [cast_div_add_cast_mod_div _ (by omega), cast_sub_eq_max, ← max_div_div_right (Nat.cast_nonneg _),
    zero_div, formula]

theorem axis_frac_lt {nNew : Nat} (i nSrc : Nat) (hNew : 0 < nNew) :
    (axis i nNew nSrc).frac < (axis i nNew nSrc).denom := by
  rw [axis_eq]
  exact Nat.mod_lt _ (by omega)

/-- The neighbour step is 1 except at the last index (42_resize_datapath.md R163). -/
theorem axis_step (i nNew nSrc : Nat) : (axis i nNew nSrc).step =
    if (axis i nNew nSrc).base + 1 < nSrc then 1 else 0 := by
  rw [axis_eq]

/-- Settles O37, by the bounds on the base index and the neighbour and the step's one case. -/
theorem axisStaysInside : Obligations.AxisStaysInside := by
  intro i nNew nSrc hi hsrc
  have base := axis_base_lt hi hsrc
  have neighbour := axis_base_add_step_lt hi hsrc
  refine ⟨by omega, by omega, rfl, axis_frac_lt i nSrc (by omega), fun below => ?_, fun last => ?_⟩
  · rw [axis_step, if_pos (by omega)]
  · rw [axis_step, if_neg (by omega)]

/-- With equal sizes each index maps to itself (42_resize_datapath.md R172). -/
theorem axis_same {i n : Nat} (hi : i < n) :
    axis i n n = { base := i, frac := 0, denom := 2 * n, step := if i + 1 < n then 1 else 0 } := by
  have numerator : (2 * i + 1) * n - n = i * (2 * n) := by
    rw [Nat.succ_mul, Nat.add_sub_cancel]; ring
  rw [axis_eq, numerator]
  dsimp only
  rw [Nat.mul_div_cancel _ (by omega), Nat.mul_mod_left]

/-- A source of one index has the base index 0 and no neighbour beside it (42_resize_datapath.md R173). -/
theorem axis_single {i n : Nat} (hi : i < n) : (axis i n 1).base = 0 ∧ (axis i n 1).step = 0 := by
  have inside := axis_base_add_step_lt hi Nat.one_pos
  omega

/-- Halving maps index `i` midway between the source indices `2*i` and `2*i + 1` (42_resize_datapath.md
R173). -/
theorem axis_half {i n : Nat} (hi : i < n) :
    axis i n (2 * n) = { base := 2 * i, frac := n, denom := 2 * n, step := 1 } := by
  have numerator : (2 * i + 1) * (2 * n) - n = n + 2 * n * (2 * i) :=
    Nat.sub_eq_of_eq_add (by ring)
  have base : (n + 2 * n * (2 * i)) / (2 * n) = 2 * i := by
    rw [Nat.add_mul_div_left _ _ (by omega), Nat.div_eq_of_lt (by omega), Nat.zero_add]
  have frac : (n + 2 * n * (2 * i)) % (2 * n) = n := by
    rw [Nat.add_mul_mod_self_left, Nat.mod_eq_of_lt (by omega)]
  rw [axis_eq, numerator]
  dsimp only
  rw [base, frac, if_pos (by omega)]

/-! ## Blend (42_resize_datapath.md R167 to R169, R171) -/

theorem weights_add {fu du fv dv : Nat} (hu : fu ≤ du) (hv : fv ≤ dv) :
    (du - fu) * (dv - fv) + fu * (dv - fv) + (du - fu) * fv + fu * fv = du * dv := by
  obtain ⟨u, rfl⟩ := Nat.exists_eq_add_of_le hu
  obtain ⟨v, rfl⟩ := Nat.exists_eq_add_of_le hv
  rw [Nat.add_sub_cancel_left, Nat.add_sub_cancel_left]
  ring

section Mean

variable {ax ay : Axis} {c00 c10 c01 c11 : Byte}

/-- The weights are those of a mean: a bound above the four values bounds the sum. -/
theorem colourSum_le (hu : ax.frac ≤ ax.denom) (hv : ay.frac ≤ ay.denom) {hi : Nat} (h00 : c00.toNat ≤ hi)
    (h10 : c10.toNat ≤ hi) (h01 : c01.toNat ≤ hi) (h11 : c11.toNat ≤ hi) :
    colourSum ax ay c00 c10 c01 c11 ≤ hi * (ax.denom * ay.denom) := by
  rw [← weights_add hu hv, colourSum, Nat.mul_add, Nat.mul_add, Nat.mul_add]
  gcongr

theorem le_colourSum (hu : ax.frac ≤ ax.denom) (hv : ay.frac ≤ ay.denom) {lo : Nat} (h00 : lo ≤ c00.toNat)
    (h10 : lo ≤ c10.toNat) (h01 : lo ≤ c01.toNat) (h11 : lo ≤ c11.toNat) :
    lo * (ax.denom * ay.denom) ≤ colourSum ax ay c00 c10 c01 c11 := by
  rw [← weights_add hu hv, colourSum, Nat.mul_add, Nat.mul_add, Nat.mul_add]
  gcongr

/-- No channel exceeds the largest byte, so neither does their weighted sum. -/
theorem colourSum_le_255 (hu : ax.frac ≤ ax.denom) (hv : ay.frac ≤ ay.denom) :
    colourSum ax ay c00 c10 c01 c11 ≤ 255 * (ax.denom * ay.denom) :=
  colourSum_le hu hv (Nat.le_of_lt_succ c00.isLt) (Nat.le_of_lt_succ c10.isLt) (Nat.le_of_lt_succ c01.isLt)
    (Nat.le_of_lt_succ c11.isLt)

/-- The mean fits a channel: nothing is cut off (42_resize_datapath.md R167, R171). -/
theorem toNat_blendChannel (hu : ax.frac < ax.denom) (hv : ay.frac < ay.denom) :
    (blendChannel ax ay c00 c10 c01 c11).toNat =
      colourSum ax ay c00 c10 c01 c11 / (ax.denom * ay.denom) := by
  have fits : colourSum ax ay c00 c10 c01 c11 / (ax.denom * ay.denom) ≤ 255 :=
    Nat.div_le_of_le_mul (Nat.mul_comm 255 _ ▸ colourSum_le_255 hu.le hv.le)
  rw [blendChannel, BitVec.toNat_ofNat, Nat.mod_eq_of_lt (Nat.lt_succ_of_le fits)]

theorem blendChannel_le (hu : ax.frac < ax.denom) (hv : ay.frac < ay.denom) {hi : Nat}
    (h00 : c00.toNat ≤ hi) (h10 : c10.toNat ≤ hi) (h01 : c01.toNat ≤ hi) (h11 : c11.toNat ≤ hi) :
    (blendChannel ax ay c00 c10 c01 c11).toNat ≤ hi := by
  rw [toNat_blendChannel hu hv]
  exact Nat.div_le_of_le_mul (Nat.mul_comm hi _ ▸ colourSum_le hu.le hv.le h00 h10 h01 h11)

theorem le_blendChannel (hu : ax.frac < ax.denom) (hv : ay.frac < ay.denom) {lo : Nat}
    (h00 : lo ≤ c00.toNat) (h10 : lo ≤ c10.toNat) (h01 : lo ≤ c01.toNat) (h11 : lo ≤ c11.toNat) :
    lo ≤ (blendChannel ax ay c00 c10 c01 c11).toNat := by
  rw [toNat_blendChannel hu hv, Nat.le_div_iff_mul_le (Nat.mul_pos (by omega) (by omega))]
  exact le_colourSum hu.le hv.le h00 h10 h01 h11

/-- Four equal values blend to that value, whatever the fractions (42_resize_datapath.md R173). -/
theorem blendChannel_const (hu : ax.frac < ax.denom) (hv : ay.frac < ay.denom) (c : Byte) :
    blendChannel ax ay c c c c = c :=
  BitVec.eq_of_toNat_eq (Nat.le_antisymm (blendChannel_le hu hv le_rfl le_rfl le_rfl le_rfl)
    (le_blendChannel hu hv le_rfl le_rfl le_rfl le_rfl))

/-- With both fractions 0 the base neighbour has all the weight (42_resize_datapath.md R172). -/
theorem blendChannel_of_frac_zero (hu : 0 < ax.denom) (hv : 0 < ay.denom) (fu : ax.frac = 0)
    (fv : ay.frac = 0) : blendChannel ax ay c00 c10 c01 c11 = c00 := by
  apply BitVec.eq_of_toNat_eq
  rw [toNat_blendChannel (by omega) (by omega)]
  simp only [colourSum, fu, fv, Nat.sub_zero, Nat.zero_mul, Nat.mul_zero, Nat.add_zero]
  exact Nat.mul_div_cancel _ (Nat.mul_pos hu hv)

/-- With both fractions one half the four neighbours weigh the same (42_resize_datapath.md R173). -/
theorem toNat_blendChannel_of_half (hu : 0 < ax.frac) (hv : 0 < ay.frac) (du : ax.denom = 2 * ax.frac)
    (dv : ay.denom = 2 * ay.frac) : (blendChannel ax ay c00 c10 c01 c11).toNat =
      (c00.toNat + c10.toNat + c01.toNat + c11.toNat) / 4 := by
  have half : ∀ n, 2 * n - n = n := by omega
  have sum : colourSum ax ay c00 c10 c01 c11 =
      (c00.toNat + c10.toNat + c01.toNat + c11.toNat) * (ax.frac * ay.frac) := by
    rw [colourSum, du, dv, half, half]; ring
  have product : ax.denom * ay.denom = 4 * (ax.frac * ay.frac) := by rw [du, dv]; ring
  rw [toNat_blendChannel (by omega) (by omega), sum, product, Nat.mul_div_mul_right _ _ (Nat.mul_pos hu hv)]

end Mean

/-- Settles O39: the weights add up, so the quotient fits a byte and lies between the four values, and the sum
is at most 255 times the two denominators. -/
theorem blendIsExactMean : Obligations.BlendIsExactMean := by
  intro ax ay c00 c10 c01 c11 _ _ hu hv
  refine ⟨weights_add hu.le hv.le, toNat_blendChannel hu hv, ?_, ?_, fun du dv => ?_⟩
  · apply le_blendChannel hu hv <;> omega
  · apply blendChannel_le hu hv <;> omega
  · calc colourSum ax ay c00 c10 c01 c11 ≤ 255 * (ax.denom * ay.denom) := colourSum_le_255 hu.le hv.le
      _ ≤ 255 * (131070 * 131070) := Nat.mul_le_mul_left _ (Nat.mul_le_mul du dv)
      _ < 2 ^ 42 := by norm_num

/-- Settles O40, by the two cases of the alpha rule; the colours are the blend's own fields. -/
theorem alphaRule : Obligations.AlphaRule := by
  intro ax ay n
  refine ⟨fun clear => if_pos clear, fun h10 h01 h11 => if_neg ?_, rfl, rfl, rfl⟩
  rintro (h | h | h)
  · exact h10 h
  · exact h01 h
  · exact h11 h

/-! ## The bytes of a destination pixel (42_resize_datapath.md R164 to R166) -/

/-- The decoded source pixel at `(px, py)`, as memory holds it. -/
def sourcePixel (m : Memory) (sn : Snapshot) (f : Format) (px py : Nat) : Pixel :=
  decodePixel f (loadQuad m (srcAddr sn px py))

/-- The four neighbours that two axes name, as memory holds them. -/
def sourceNeighbours (m : Memory) (sn : Snapshot) (f : Format) (ax ay : Axis) : Neighbours where
  p00 := sourcePixel m sn f ax.base ay.base
  p10 := sourcePixel m sn f (ax.base + ax.step) ay.base
  p01 := sourcePixel m sn f ax.base (ay.base + ay.step)
  p11 := sourcePixel m sn f (ax.base + ax.step) (ay.base + ay.step)

/-- All bytes of the four neighbours that two axes name are backed. -/
def neighboursBacked (p : Platform) (sn : Snapshot) (ax ay : Axis) : Prop :=
  backedQuad p (srcAddr sn ax.base ay.base) = true ∧
  backedQuad p (srcAddr sn (ax.base + ax.step) ay.base) = true ∧
  backedQuad p (srcAddr sn ax.base (ay.base + ay.step)) = true ∧
  backedQuad p (srcAddr sn (ax.base + ax.step) (ay.base + ay.step)) = true

/-- The reads answer what memory holds when all four neighbours are backed (42_resize_datapath.md R165). -/
theorem gather_backed {p : Platform} {sn : Snapshot} {ax ay : Axis} (h : neighboursBacked p sn ax ay)
    (m : Memory) (f : Format) : gather p m sn f ax ay = some (sourceNeighbours m sn f ax ay) := by
  obtain ⟨h00, h10, h01, h11⟩ := h
  simp only [gather_eq_some, readNeighbour_eq, h00, h10, h01, h11, if_true]
  exact ⟨rfl, rfl, rfl, rfl⟩

/-- A neighbour that is not backed ends the reads (42_resize_datapath.md R165, R170). -/
theorem gather_unbacked {p : Platform} {sn : Snapshot} {ax ay : Axis} (h : ¬ neighboursBacked p sn ax ay)
    (m : Memory) (f : Format) : gather p m sn f ax ay = none := by
  refine Option.eq_none_iff_forall_ne_some.2 fun n read => h ?_
  have backed_of_read : ∀ {px py q}, readNeighbour p m sn f px py = some q →
      backedQuad p (srcAddr sn px py) = true := by
    intro px py q hq
    rw [readNeighbour_eq] at hq
    by_contra unbacked
    rw [if_neg unbacked] at hq
    cases hq
  obtain ⟨h00, h10, h01, h11⟩ := gather_eq_some.1 read
  exact ⟨backed_of_read h00, backed_of_read h10, backed_of_read h01, backed_of_read h11⟩

section PixelBytes

variable {p : Platform} {sn : Snapshot} {i : Nat} {f : Format}

theorem pixelBytes_backed (hf : Format.ofCode sn.fmt = some f)
    (h : neighboursBacked p sn (axisX sn i) (axisY sn i)) (m : Memory) : pixelBytes p m sn i =
      some (encodePixel f (blend (axisX sn i) (axisY sn i)
        (sourceNeighbours m sn f (axisX sn i) (axisY sn i)))) := by
  rw [pixelBytes, hf, Option.bind_some, gather_backed h, Option.map_some]

theorem pixelBytes_unbacked (h : ¬ neighboursBacked p sn (axisX sn i) (axisY sn i)) (m : Memory) :
    pixelBytes p m sn i = none := by
  cases hf : Format.ofCode sn.fmt with
  | none => rw [pixelBytes, hf, Option.bind_none]
  | some f => rw [pixelBytes, hf, Option.bind_some, gather_unbacked h, Option.map_none]

end PixelBytes

/-- Settles O41, by whether all four neighbours are backed. -/
theorem pixelBytesAreTheBlend : Obligations.PixelBytesAreTheBlend := by
  intro p m sn i f hf
  by_cases h : neighboursBacked p sn (axisX sn i) (axisY sn i)
  · exact (pixelBytes_backed hf h m).trans (if_pos h).symm
  · exact (pixelBytes_unbacked h m).trans (if_neg h).symm

/-! ## The neighbours of an accepted operation (42_resize_datapath.md R164; 41_commands.md R143) -/

/-- An accepted operation has a channel order (10_state.md R46, 41_commands.md R143 step 1). -/
theorem ofCode_of_accepted {sn : Snapshot} (accepted : validate sn = .accepted) :
    ∃ f, Format.ofCode sn.fmt = some f := by
  obtain ⟨known, -⟩ := validate_accepted.1 accepted
  exact Option.ne_none_iff_exists'.1 fun reserved => known (ofCode_eq_none.1 reserved)

theorem backedQuad_of_forall {p : Platform} {a : Nat} (h : ∀ k < 4, backed p (a + k) = true) :
    backedQuad p a = true :=
  backedQuad_iff.2 ⟨h 0 (by omega), h 1 (by omega), h 2 (by omega), h 3 (by omega)⟩

/-- A source pixel is backed where its extent is (20_memory.md R66). -/
theorem backedQuad_source {p : Platform} {sn : Snapshot} (accepted : validate sn = .accepted)
    (extent : ∀ a, srcStart sn ≤ a → a < srcEnd sn → backed p a = true) {px py : Nat}
    (hx : px < sn.srcW.toNat) (hy : py < sn.srcH.toNat) : backedQuad p (srcAddr sn px py) = true := by
  obtain ⟨-, above, below⟩ := srcAddr_inside accepted hx hy
  exact backedQuad_of_forall fun k hk => extent _ (above.trans (Nat.le_add_right _ k)) (by omega)

section Accepted

variable {sn : Snapshot} {i : Nat} (accepted : validate sn = .accepted) (hi : i < pixelCount sn)
include accepted hi

/-- Both coordinates that either axis names, the base and the neighbour, are source indices. -/
theorem neighbours_inside :
    ((axisX sn i).base < sn.srcW.toNat ∧ (axisX sn i).base + (axisX sn i).step < sn.srcW.toNat) ∧
    ((axisY sn i).base < sn.srcH.toNat ∧ (axisY sn i).base + (axisY sn i).step < sn.srcH.toNat) := by
  obtain ⟨x0, y0, -⟩ := neighboursInsideSource sn i 0 0 accepted hi (.inl rfl) (.inl rfl)
  obtain ⟨x1, y1, -⟩ := neighboursInsideSource sn i _ _ accepted hi (.inr rfl) (.inr rfl)
  exact ⟨⟨x0, x1⟩, y0, y1⟩

theorem neighboursBacked_source {p : Platform}
    (extent : ∀ a, srcStart sn ≤ a → a < srcEnd sn → backed p a = true) :
    neighboursBacked p sn (axisX sn i) (axisY sn i) := by
  obtain ⟨⟨x0, x1⟩, y0, y1⟩ := neighbours_inside accepted hi
  exact ⟨backedQuad_source accepted extent x0 y0, backedQuad_source accepted extent x1 y0,
    backedQuad_source accepted extent x0 y1, backedQuad_source accepted extent x1 y1⟩

/-- The neighbours depend on the source's pixels alone (42_resize_datapath.md R173). -/
theorem sourceNeighbours_congr {m m' : Memory} (f : Format)
    (same : ∀ px py, px < sn.srcW.toNat → py < sn.srcH.toNat →
      sourcePixel m sn f px py = sourcePixel m' sn f px py) :
    sourceNeighbours m sn f (axisX sn i) (axisY sn i) =
      sourceNeighbours m' sn f (axisX sn i) (axisY sn i) := by
  obtain ⟨⟨x0, x1⟩, y0, y1⟩ := neighbours_inside accepted hi
  rw [sourceNeighbours, same _ _ x0 y0, same _ _ x1 y0, same _ _ x0 y1, same _ _ x1 y1, sourceNeighbours]

end Accepted

/-! ## The laws of the resize (42_resize_datapath.md R172, R173) -/

/-- Settles O45: the neighbours are source pixels, whose bytes the two memories share. -/
theorem paddingDoesNotMatter : Obligations.PaddingDoesNotMatter := by
  intro p m m' sn i accepted hi agree
  obtain ⟨f, hf⟩ := ofCode_of_accepted accepted
  have same : ∀ px py, px < sn.srcW.toNat → py < sn.srcH.toNat →
      sourcePixel m sn f px py = sourcePixel m' sn f px py := by
    intro px py hx hy
    refine congrArg (decodePixel f) (loadQuad_congr fun a above below => ?_)
    obtain ⟨k, rfl⟩ := Nat.exists_eq_add_of_le above
    exact agree px py k hx hy (by omega)
  by_cases h : neighboursBacked p sn (axisX sn i) (axisY sn i)
  · rw [pixelBytes_backed hf h, pixelBytes_backed hf h, sourceNeighbours_congr accepted hi f same]
  · rw [pixelBytes_unbacked h, pixelBytes_unbacked h]

/-- Four equal neighbours blend to that pixel, alpha included. -/
theorem blend_const {ax ay : Axis} (hu : ax.frac < ax.denom) (hv : ay.frac < ay.denom) (c : Pixel) :
    blend ax ay ⟨c, c, c, c⟩ = c := by
  have alpha : blendAlpha ⟨c, c, c, c⟩ = c.a := by
    simp only [blendAlpha, or_self, ite_eq_right_iff]
    exact Eq.symm
  simp only [blend, blendChannel_const hu hv, alpha]

/-- With both fractions 0 the blend is the base neighbour but for its alpha (42_resize_datapath.md R172). -/
theorem blend_of_frac_zero {ax ay : Axis} (hu : 0 < ax.denom) (hv : 0 < ay.denom) (fu : ax.frac = 0)
    (fv : ay.frac = 0) (n : Neighbours) : blend ax ay n = { n.p00 with a := blendAlpha n } := by
  simp only [blend, blendChannel_of_frac_zero hu hv fu fv]

/-- Settles O43: the four neighbours are the one source pixel. -/
theorem onePixelSource : Obligations.OnePixelSource := by
  intro p m sn i accepted width height hi hb
  obtain ⟨f, hf⟩ := ofCode_of_accepted accepted
  obtain ⟨column, row⟩ := scan_inside hi
  have fracX : (axisX sn i).frac < (axisX sn i).denom := axis_frac_lt _ _ (Nat.zero_lt_of_lt column)
  have fracY : (axisY sn i).frac < (axisY sn i).denom := axis_frac_lt _ _ (Nat.zero_lt_of_lt row)
  have wide : sn.srcW.toNat = 1 := by rw [width]; rfl
  have high : sn.srcH.toNat = 1 := by rw [height]; rfl
  obtain ⟨baseX, stepX⟩ : (axisX sn i).base = 0 ∧ (axisX sn i).step = 0 := by
    rw [axisX, wide]; exact axis_single column
  obtain ⟨baseY, stepY⟩ : (axisY sn i).base = 0 ∧ (axisY sn i).step = 0 := by
    rw [axisY, high]; exact axis_single row
  have origin : srcAddr sn 0 0 = srcStart sn := by simp [srcAddr, srcStart]
  have backed : neighboursBacked p sn (axisX sn i) (axisY sn i) := by
    simp only [neighboursBacked, baseX, stepX, baseY, stepY, origin, hb, and_self]
  have neighbours : sourceNeighbours m sn f (axisX sn i) (axisY sn i) =
      ⟨sourcePixel m sn f 0 0, sourcePixel m sn f 0 0, sourcePixel m sn f 0 0, sourcePixel m sn f 0 0⟩ := by
    simp only [sourceNeighbours, baseX, stepX, baseY, stepY]
  rw [pixelBytes_backed hf backed, neighbours, blend_const fracX fracY, sourcePixel, origin,
    encodePixel_decodePixel]

/-- Settles O42: each index maps to itself with fraction 0, so all the weight is on the pixel itself, and the
neighbours of the alpha rule are those next to it. -/
theorem identityLaw : Obligations.IdentityLaw := by
  intro p m sn i f accepted width height hi hf extent
  dsimp only
  obtain ⟨column, row⟩ := scan_inside hi
  have hx : axisX sn i = axis (scanX sn i) sn.dstW.toNat sn.dstW.toNat := by rw [axisX, width]
  have hy : axisY sn i = axis (scanY sn i) sn.dstH.toNat sn.dstH.toNat := by rw [axisY, height]
  rw [axis_same column] at hx
  rw [axis_same row] at hy
  have collapse : ∀ x n : Nat, (x + if x + 1 < n then 1 else 0) = if x + 1 < n then x + 1 else x := by
    intro x n; split_ifs <;> rfl
  rw [pixelBytes_backed hf (neighboursBacked_source accepted hi extent), blend_of_frac_zero, width, height]
  · simp only [sourceNeighbours, hx, hy, collapse]
    rfl
  · rw [hx]; dsimp only; omega
  · rw [hy]; dsimp only; omega
  · rw [hx]
  · rw [hy]

/-- Settles O44: each index maps midway between two source indices, so the four neighbours weigh the same. -/
theorem halvingIsBlockMean : Obligations.HalvingIsBlockMean := by
  intro sn i c00 c10 c01 c11 _ width height hi
  obtain ⟨column, row⟩ := scan_inside hi
  have hx : axisX sn i = ⟨2 * scanX sn i, sn.dstW.toNat, 2 * sn.dstW.toNat, 1⟩ := by
    rw [axisX, width, axis_half column]
  have hy : axisY sn i = ⟨2 * scanY sn i, sn.dstH.toNat, 2 * sn.dstH.toNat, 1⟩ := by
    rw [axisY, height, axis_half row]
  rw [hx, hy]
  exact ⟨rfl, rfl, rfl, rfl, toNat_blendChannel_of_half (Nat.zero_lt_of_lt column) (Nat.zero_lt_of_lt row)
    rfl rfl⟩

end Sys2Proof.Machine
end

section
/-! Proofs of the statements about the engine's step (42_resize_datapath.md R170): the pixel it writes, the
bus errors that stop it, and the operation that it computes step by step. -/

namespace Sys2Proof.Machine

/-! ## One step (42_resize_datapath.md R170) -/

theorem pixelStep_of_bytes {s : State} {q : Quad} (valid : validOperation s = true)
    (ordinary : ordinaryExtents s.platform s.snap = true)
    (bytes : pixelBytes s.platform s.mem s.snap s.regs.progress.toNat = some q) :
    pixelStep s = .next (writePixel q s) := by
  simp only [pixelStep, valid, ordinary, bytes, if_true]

theorem pixelStep_of_readError {s : State} (valid : validOperation s = true)
    (ordinary : ordinaryExtents s.platform s.snap = true)
    (noBytes : pixelBytes s.platform s.mem s.snap s.regs.progress.toNat = none) :
    pixelStep s = .next (stopBus s) := by
  simp only [pixelStep, valid, ordinary, noBytes, if_true]

/-- A pixel whose bytes are backed is stored and counted; only the last ends the operation. -/
theorem writePixel_backed {s : State} (q : Quad)
    (backed : backedQuad s.platform (pixelAddr s.snap s.regs.progress.toNat) = true) :
    ∃ r : Regs, writePixel q s =
        { storePixel (pixelAddr s.snap s.regs.progress.toNat) (bytesToWrite q s) s with regs := r } ∧
      r = if s.regs.progress.toNat + 1 = pixelCount s.snap
        then { s.regs with progress := s.regs.progress + 1, busy := false, done := true, err := .none }
        else { s.regs with progress := s.regs.progress + 1 } := by
  rcases writePixel_cases q s with ⟨-, more, hw⟩ | ⟨-, last, hw⟩ | ⟨unbacked, -⟩
  · exact ⟨_, hw, (if_neg more).symm⟩
  · exact ⟨_, hw, (if_pos last).symm⟩
  · rw [backed] at unbacked; cases unbacked

/-- Settles O46: the step stores the pixel and counts it, and the registers follow by whether it is the
last. -/
theorem pixelStepWritesPixel : Obligations.PixelStepWritesPixel := by
  intro s q valid ordinary bytes backed
  obtain ⟨r, written, regs⟩ := writePixel_backed q backed
  have progress : r.progress = s.regs.progress + 1 := by rw [regs]; split_ifs <;> rfl
  have counted := toNat_progress_succ (validOperation_iff.1 valid).2
  refine ⟨_, pixelStep_of_bytes valid ordinary bytes, ?_, fun a ha => read_writePixel_other q s ha, ?_⟩
  · exact loadQuad_of_stored valid (by rw [written]; rfl)
  · rw [written]
    refine ⟨by rw [progress, counted], fun more => ?_, fun last => ?_, rfl, rfl, rfl, rfl, rfl, rfl, rfl, rfl,
      rfl⟩
    · dsimp only; rw [progress, regs, if_neg more.ne]
    · dsimp only; rw [progress, regs, if_pos last]

/-- Settles O47: a failed read stops the operation at once, and a failed write after its four bytes are
drawn free. -/
theorem busErrorStopsOperation : Obligations.BusErrorStopsOperation := by
  intro s valid ordinary
  refine ⟨pixelStep_of_readError valid ordinary, fun q bytes unbacked => ?_⟩
  have inside := pixelAddr_inside (validOperation_iff.1 valid).1 (validOperation_iff.1 valid).2
  have failed : writePixel q s = stopBus (makeUnspecified (pixelAddr s.snap s.regs.progress.toNat) 4 s) := by
    rcases writePixel_cases q s with ⟨backed, -⟩ | ⟨backed, -⟩ | ⟨-, hw⟩
    · rw [backed] at unbacked; cases unbacked
    · rw [backed] at unbacked; cases unbacked
    · exact hw
  refine ⟨_, pixelStep_of_bytes valid ordinary bytes, ?_, fun a ha => read_writePixel_other q s ha, ?_⟩
  · rw [failed]; rfl
  · rw [failed]
    exact ⟨fun k hk => read_fillFree_inside _ _ hk (by omega), rfl, rfl, rfl, rfl, rfl, rfl, rfl, rfl⟩

/-! ## The whole operation (42_resize_datapath.md R170, 70_reset_and_hazards.md R250) -/

/-- A run can be taken one step further. -/
theorem runsTo_succ {s t u : State} {n : Nat} (run : runsTo s n t) (next : step t = .next u) :
    runsTo s (n + 1) u := by
  induction n generalizing s with
  | zero => exact ⟨u, run ▸ next, rfl⟩
  | succ n ih =>
    obtain ⟨v, first, rest⟩ := run
    exact ⟨v, first, ih rest⟩

/-- The operation that `s` starts has written its first `k` pixels, and nothing else, by the state `t`. -/
structure Resized (s : State) (k : Nat) (t : State) : Prop where
  platform : t.platform = s.platform
  snap : t.snap = s.snap
  noInput : t.inputs = []
  noConflict : t.conflict = false
  progress : t.regs.progress.toNat = k
  running : k < pixelCount s.snap → t.regs.busy = true
  ended : k = pixelCount s.snap → t.regs.busy = false ∧ t.regs.done = true ∧ t.regs.err = .none
  pixels : ∀ i, i < k → some (loadQuad t.mem (pixelAddr s.snap i)) = pixelBytes s.platform s.mem s.snap i
  outside : ∀ a, inDestination s.snap a = false → t.mem.read a = s.mem.read a

/-- What an operation needs to run undisturbed: it is accepted, and its memory is ordinary and backed. -/
structure Undisturbed (s : State) : Prop where
  accepted : validate s.snap = .accepted
  ordinary : ordinaryExtents s.platform s.snap = true
  memory : ∀ a, (inSource s.snap a = true ∨ inDestination s.snap a = true) → backed s.platform a = true

/-- Storing pixel `k` and no other byte adds it to the pixels stored before. -/
theorem loadQuad_pixels_succ {m m' : Memory} {sn : Snapshot} {k : Nat} {result : Nat → Option Quad}
    (before : ∀ i, i < k → some (loadQuad m (pixelAddr sn i)) = result i)
    (own : some (loadQuad m' (pixelAddr sn k)) = result k)
    (others : ∀ a, (a < pixelAddr sn k ∨ pixelAddr sn k + 4 ≤ a) → m'.read a = m.read a) (i : Nat)
    (hi : i < k + 1) : some (loadQuad m' (pixelAddr sn i)) = result i := by
  rcases Nat.lt_succ_iff_lt_or_eq.1 hi with earlier | rfl
  · have kept : loadQuad m' (pixelAddr sn i) = loadQuad m (pixelAddr sn i) :=
      loadQuad_congr fun a _ below => others a (.inl (by rw [pixelAddr_eq] at below ⊢; omega))
    rw [kept, before i earlier]
  · exact own

namespace Undisturbed

variable {s t : State} {k : Nat}

/-- No source pixel has a byte in the destination (41_commands.md R143 step 7). -/
theorem source_outside (op : Undisturbed s) {px py j : Nat} (hx : px < s.snap.srcW.toNat)
    (hy : py < s.snap.srcH.toNat) (hj : j < 4) :
    inDestination s.snap (srcAddr s.snap px py + j) = false := by
  obtain ⟨-, -, -, -, -, -, apart⟩ := validate_accepted.1 op.accepted
  obtain ⟨-, above, below⟩ := srcAddr_inside op.accepted hx hy
  rw [inDestination_eq_false]
  unfold srcStart at apart
  omega

/-- The engine's own writes do not reach its source: a pixel's bytes are those of the start. -/
theorem pixelBytes_eq (op : Undisturbed s) (sofar : Resized s k t) {i : Nat} (hi : i < pixelCount s.snap) :
    pixelBytes t.platform t.mem t.snap i = pixelBytes s.platform s.mem s.snap i := by
  rw [sofar.platform, sofar.snap]
  exact paddingDoesNotMatter _ _ _ _ _ op.accepted hi fun px py j hx hy hj =>
    sofar.outside _ (op.source_outside hx hy hj)

/-- No read of the operation fails. -/
theorem pixelBytes_some (op : Undisturbed s) {i : Nat} (hi : i < pixelCount s.snap) :
    ∃ q, pixelBytes s.platform s.mem s.snap i = some q := by
  obtain ⟨f, hf⟩ := ofCode_of_accepted op.accepted
  have source : ∀ a, srcStart s.snap ≤ a → a < srcEnd s.snap → backed s.platform a = true :=
    fun a above below => op.memory a (.inl (by simp [inSource, above, below]))
  exact ⟨_, pixelBytes_backed hf (neighboursBacked_source op.accepted hi source) s.mem⟩

/-- No write of the operation fails. -/
theorem pixel_backed (op : Undisturbed s) {i : Nat} (hi : i < pixelCount s.snap) :
    backedQuad s.platform (pixelAddr s.snap i) = true := by
  obtain ⟨above, below⟩ := pixelAddr_in_extent hi
  refine backedQuad_of_forall fun j hj => op.memory _ (.inr ?_)
  simp only [inDestination, Bool.and_eq_true, decide_eq_true_eq]
  omega

/-- A state with a pixel left meets all that a `PIXEL_STEP` asks for. -/
theorem step_eq_pixelStep (op : Undisturbed s) (sofar : Resized s k t) (more : k < pixelCount s.snap) :
    step t = pixelStep t ∧ validOperation t = true ∧ ordinaryExtents t.platform t.snap = true ∧
    backedQuad t.platform (pixelAddr t.snap t.regs.progress.toNat) = true := by
  refine ⟨(step_nil sofar.noInput).trans (if_pos (sofar.running more)), ?_⟩
  rw [validOperation_iff, sofar.platform, sofar.snap, sofar.progress]
  exact ⟨⟨op.accepted, more⟩, op.ordinary, op.pixel_backed more⟩

/-- One more step writes one more pixel. -/
theorem step_resized (op : Undisturbed s) (sofar : Resized s k t) (more : k < pixelCount s.snap) :
    ∃ u, step t = .next u ∧ Resized s (k + 1) u := by
  obtain ⟨q, bytes⟩ := op.pixelBytes_some more
  obtain ⟨turn, valid, ordinary, backed⟩ := op.step_eq_pixelStep sofar more
  have result : pixelBytes t.platform t.mem t.snap t.regs.progress.toNat = some q := by
    rw [sofar.progress, op.pixelBytes_eq sofar more, bytes]
  obtain ⟨u, next, own, others, counted, notLast, last, -, -, snap, conflict, -, -, -, inputs, platform⟩ :=
    pixelStepWritesPixel t q valid ordinary result backed
  rw [if_neg (by simp [sofar.noConflict])] at own
  rw [sofar.snap, sofar.progress] at own others notLast last
  refine ⟨u, turn.trans next, ?_⟩
  exact {
    platform := platform.trans sofar.platform
    snap := snap.trans sofar.snap
    noInput := inputs.trans sofar.noInput
    noConflict := conflict.trans sofar.noConflict
    progress := by rw [counted, sofar.progress]
    running := fun left => by rw [notLast left]; exact sofar.running more
    ended := fun all => by rw [last all]; exact ⟨rfl, rfl, rfl⟩
    pixels := loadQuad_pixels_succ sofar.pixels (by rw [own, bytes]) others
    outside := fun a ha => by
      obtain ⟨above, below⟩ := pixelAddr_in_extent more
      rw [others a (by have := inDestination_eq_false.1 ha; omega), sofar.outside a ha] }

/-- The operation runs on from its start for as many steps as it has pixels. -/
theorem run_resized (op : Undisturbed s) (start : Resized s 0 s) (hk : k ≤ pixelCount s.snap) :
    ∃ t, runsTo s k t ∧ Resized s k t := by
  induction k with
  | zero => exact ⟨s, rfl, start⟩
  | succ k ih =>
    obtain ⟨t, run, sofar⟩ := ih (Nat.le_of_succ_le hk)
    obtain ⟨u, next, resized⟩ := op.step_resized sofar hk
    exact ⟨u, runsTo_succ run next, resized⟩

end Undisturbed

/-- A busy engine that has counted no pixel stands at the start of its operation. -/
theorem Resized.start {s : State} (busy : s.regs.busy = true) (unstarted : s.regs.progress = 0)
    (noConflict : s.conflict = false) (noInput : s.inputs = []) (pos : 0 < pixelCount s.snap) :
    Resized s 0 s where
  platform := rfl
  snap := rfl
  noInput := noInput
  noConflict := noConflict
  progress := by rw [unstarted]; rfl
  running _ := busy
  ended empty := absurd empty pos.ne
  pixels i hi := absurd hi (Nat.not_lt_zero i)
  outside _ _ := rfl

/-- Settles O51, by the steps of the run: after `k` of them the first `k` pixels hold the blend of the source,
which no step of the operation changes. -/
theorem operationComputesResize : Obligations.OperationComputesResize := by
  intro s inv busy unstarted noConflict noInput ordinary memory
  obtain ⟨accepted, -⟩ := validOperation_iff.1 (inv.busyValid busy)
  have op : Undisturbed s := ⟨accepted, ordinary, memory⟩
  have start := Resized.start busy unstarted noConflict noInput (pixelCount_pos accepted)
  obtain ⟨t, run, resized⟩ := op.run_resized start le_rfl
  obtain ⟨idle, done, noError⟩ := resized.ended rfl
  exact ⟨t, run, idle, done, noError, resized.progress, resized.pixels, resized.outside⟩

end Sys2Proof.Machine
end

section
/-! Proofs of the statements about 60_exceptions.md: a machine with nothing to do waits (R216), and the error
codes with their place in `STATUS` (R201, R32). -/

namespace Sys2Proof.Machine

/-- Settles O9: with no input left the step is the engine's turn, which changes nothing while it is idle. -/
theorem idleMachineWaits : Obligations.IdleMachineWaits := fun _ noInput idle =>
  (step_nil noInput).trans (engineTurn_idle idle)

/-! ## The error codes in the status word (60_exceptions.md R201, 10_state.md R32) -/

/-- The codes 9 to 15 name no error. -/
theorem code_le (c : ErrCode) : c.code ≤ 8#4 := by
  cases c <;> decide

/-- Below the error code stand only the three flags, in bits 2..0, and above it nothing. -/
theorem toNat_statusWord_flags_err (r : Regs) :
    ∃ flags < 8, (statusWord r).toNat = flags + 16 * r.err.code.toNat := by
  refine ⟨_, ?_, toNat_statusWord r⟩
  have busy := r.busy.toNat_le
  have done := r.done.toNat_le
  have ign := r.ign.toNat_le
  omega

/-- Bits 7..4 of the status word hold the error code. -/
theorem statusWord_err (r : Regs) : (statusWord r).extractLsb' 4 4 = r.err.code := by
  obtain ⟨flags, small, value⟩ := toNat_statusWord_flags_err r
  apply BitVec.eq_of_toNat_eq
  rw [BitVec.extractLsb'_toNat, Nat.shiftRight_eq_div_pow, value]
  omega

/-- Bit 3 of the status word is reserved. -/
theorem statusWord_bit3 (r : Regs) : (statusWord r).getLsbD 3 = false := by
  obtain ⟨flags, small, value⟩ := toNat_statusWord_flags_err r
  rw [BitVec.getLsbD, value, Nat.testBit_eq_decide_div_mod_eq, decide_eq_false_iff_not]
  omega

/-- Bits 31..8 of the status word are reserved. -/
theorem statusWord_high (r : Regs) : (statusWord r).extractLsb' 8 24 = 0#24 := by
  obtain ⟨flags, small, value⟩ := toNat_statusWord_flags_err r
  apply BitVec.eq_of_toNat_eq
  rw [BitVec.extractLsb'_toNat, Nat.shiftRight_eq_div_pow, value, BitVec.toNat_ofNat]
  omega

/-- Settles O22: the codes by name, and the status word by its fields. -/
theorem errorCodes : Obligations.ErrorCodes :=
  ⟨⟨rfl, rfl, rfl, rfl, rfl, rfl, rfl, rfl, rfl⟩, fun r =>
    ⟨statusWord_err r, statusWord_err r ▸ code_le r.err, statusWord_bit3 r, statusWord_high r⟩⟩

end Sys2Proof.Machine
end

section
/-! Proofs of the statements about reset and about where the machine stops: what asserting and releasing reset
does (70_reset_and_hazards.md R235 to R238), which steps have no next state (R235, R245), and that an operation
left alone ends (R250). -/

namespace Sys2Proof.Machine

/-! ## Reset (70_reset_and_hazards.md R235 to R238) -/

/-- Settles O29: the reset values go with any snapshot, and nothing is listed in memory. -/
theorem resetMeetsInvariant : Obligations.ResetMeetsInvariant :=
  (RegsInv.reset State.reset.snap).inv rfl fun _ => rfl

/-- Settles O21: the destination size of the reset registers is 0, so the `RESIZE` is an empty one. -/
theorem resizeAfterResetIsEmpty : Obligations.ResizeAfterResetIsEmpty := by
  have empty : validate (takeSnapshot State.reset.regs) = .empty := by decide
  refine ⟨_, resizeStarts State.reset rfl, ?_, rfl, rfl⟩
  rw [empty]
  rfl

/-- An asserted reset is the next step of any state whose first input it is. -/
theorem step_resetAssert {s : State} {rest : List Input} (h : s.inputs = .resetAssert :: rest) :
    step s = .next (assertReset { s with inputs := rest }) := step_cons h

@[simp] theorem assertReset_inReset (s : State) : (assertReset s).inReset = true := rfl

@[simp] theorem assertReset_mem (s : State) : (assertReset s).mem = (spoilDestination s).mem := rfl

/-- Settles O58: asserting reset sets the registers to their reset values, and releasing it is one field's
update. -/
theorem resetRegisters : Obligations.ResetRegisters :=
  ⟨fun _ _ h => ⟨_, step_resetAssert h, assertReset_inReset _, assertReset_inputs _, rfl, readReg_reset⟩,
    fun _ _ h => step_cons h⟩

theorem spoilDestination_idle {s : State} (idle : s.regs.busy = false) : spoilDestination s = s :=
  if_neg (by simp [idle])

theorem spoilDestination_busy {s : State} (busy : s.regs.busy = true) : spoilDestination s =
    makeUnspecified (dstStart s.snap) (4 * pixelCount s.snap) s := if_pos busy

/-- A byte of the running operation's destination extent is a free value after reset
(70_reset_and_hazards.md R237). -/
theorem read_assertReset_inside {s : State} (busy : s.regs.busy = true) {a : Nat}
    (ha : inDestination s.snap a = true) (space : a < memBytes) :
    (assertReset s).mem.read a = Config.freeByte (s.freeCount + (a - dstStart s.snap)) := by
  simp only [inDestination, Bool.and_eq_true, decide_eq_true_eq, dstEnd_eq] at ha
  obtain ⟨k, rfl⟩ := Nat.exists_eq_add_of_le ha.1
  rw [assertReset_mem, spoilDestination_busy busy, Nat.add_sub_cancel_left]
  exact read_fillFree_inside _ _ (by omega) space

/-- Settles O59, by whether the engine is busy and the byte lies in its destination extent. -/
theorem resetMemory : Obligations.ResetMemory := by
  intro s rest h
  refine ⟨_, step_resetAssert h, fun idle => ?_, fun a ha => ?_, fun busy a ha space => ?_⟩
  · rw [assertReset_mem, spoilDestination_idle (s := { s with inputs := rest }) idle]
  · exact read_assertReset_outside (s := { s with inputs := rest }) (.inr ha)
  · exact read_assertReset_inside (s := { s with inputs := rest }) busy ha space

/-! ## Where a step stops (70_reset_and_hazards.md R235, R245) -/

/-- No transaction is answered while reset is held (93_implementation_defined.md S17). -/
theorem takePort_held (e : Encoded) {s : State} (h : s.inReset = true) :
    takePort e s = .fault .transactionDuringReset := if_pos h

/-- Settles O10: the port and each of the host's other steps ask first whether reset is held. -/
theorem transactionDuringResetStops : Obligations.TransactionDuringResetStops := by
  intro s held
  refine ⟨fun e rest h => (step_cons h).trans (takePort_held e held), ?_⟩
  rintro ⟨rest, ⟨index, lanes, q, h⟩ | ⟨index, h⟩ | h⟩
  · exact (step_cons h).trans (takeHostStep_held _ held)
  · exact (step_cons h).trans (takeHostStep_held _ held)
  · exact (step_cons h).trans (takeHostStep_held _ held)

theorem engineTurn_busy {s : State} (busy : s.regs.busy = true) : engineTurn s = pixelStep s := if_pos busy

/-- A valid operation's `PIXEL_STEP` is refused where an extent is not ordinary memory. -/
theorem pixelStep_of_nonOrdinary {s : State} (valid : validOperation s = true)
    (nonOrdinary : ordinaryExtents s.platform s.snap = false) :
    pixelStep s = .refused .nonOrdinaryMemory := by
  simp [pixelStep, valid, nonOrdinary]

/-- One address that is not ordinary is enough for a range that holds it. -/
theorem ordinaryRange_eq_false {p : Platform} {r : AddrRange} {lo hi a : Nat} (hr : r ∈ p.unordinary)
    (inRange : r.lo ≤ a ∧ a < r.hi) (inside : lo ≤ a ∧ a < hi) : ordinaryRange p lo hi = false := by
  have meets : rangeMeets r lo hi = true := by
    rw [rangeMeets, decide_eq_true_eq]
    omega
  rw [ordinaryRange, List.any_eq_true.2 ⟨r, hr, meets⟩, Bool.not_true]

/-- Settles O48: the address makes the range of the extent it lies in not ordinary. -/
theorem nonOrdinaryOperationRefused : Obligations.NonOrdinaryOperationRefused := by
  intro s a r busy valid hr above below extent
  rw [engineTurn_busy busy]
  apply pixelStep_of_nonOrdinary valid
  rw [ordinaryExtents]
  rcases extent with source | destination
  · simp only [inSource, Bool.and_eq_true, decide_eq_true_eq] at source
    rw [ordinaryRange_eq_false hr ⟨above, below⟩ source, Bool.false_and]
  · simp only [inDestination, Bool.and_eq_true, decide_eq_true_eq] at destination
    rw [ordinaryRange_eq_false hr ⟨above, below⟩ destination, Bool.and_false]

/-- What a valid operation's `PIXEL_STEP` in ordinary memory does to the block: it counts the pixel, counts the
last one and ends the operation, or ends it with BUS (42_resize_datapath.md R170). -/
theorem pixelStep_of_ordinary {s : State} (valid : validOperation s = true)
    (ordinary : ordinaryExtents s.platform s.snap = true) :
    ∃ t, pixelStep s = .next t ∧ t.platform = s.platform ∧ t.snap = s.snap ∧ t.inputs = s.inputs ∧
      ((s.regs.progress.toNat + 1 ≠ pixelCount s.snap ∧
          t.regs = { s.regs with progress := s.regs.progress + 1 }) ∨
        (s.regs.progress.toNat + 1 = pixelCount s.snap ∧ t.regs = { s.regs with
          progress := s.regs.progress + 1, busy := false, done := true, err := .none }) ∨
        t.regs = { s.regs with busy := false, done := true, err := .bus }) := by
  cases bytes : pixelBytes s.platform s.mem s.snap s.regs.progress.toNat with
  | none => exact ⟨_, pixelStep_of_readError valid ordinary bytes, rfl, rfl, rfl, .inr (.inr rfl)⟩
  | some q =>
    refine ⟨_, pixelStep_of_bytes valid ordinary bytes, writePixel_platform s q, writePixel_snap s q,
      writePixel_inputs s q, ?_⟩
    rcases writePixel_cases q s with ⟨-, more, written⟩ | ⟨-, last, written⟩ | ⟨-, failed⟩
    · exact .inl ⟨more, by rw [written]⟩
    · exact .inr (.inl ⟨last, by rw [written]⟩)
    · exact .inr (.inr (by rw [failed]; rfl))

/-- The turn of an engine that is busy only with a valid operation completes, or is refused on memory that is
not ordinary. -/
theorem engineTurn_outcome {s : State} (busyValid : s.regs.busy = true → validOperation s = true) :
    (∃ t, engineTurn s = .next t) ∨ (engineTurn s = .refused .nonOrdinaryMemory ∧ s.regs.busy = true ∧
      ordinaryExtents s.platform s.snap = false) := by
  cases busy : s.regs.busy with
  | false => exact .inl ⟨s, engineTurn_idle busy⟩
  | true =>
    rw [engineTurn_busy busy]
    cases ordinary : ordinaryExtents s.platform s.snap with
    | false => exact .inr ⟨pixelStep_of_nonOrdinary (busyValid busy) ordinary, rfl, rfl⟩
    | true =>
      obtain ⟨t, next, -⟩ := pixelStep_of_ordinary (busyValid busy) ordinary
      exact .inl ⟨t, next⟩

/-- Every input of the port is answered (40_host_access.md R120 to R122). -/
theorem runEncoded_completes (e : Encoded) (s : State) : ∃ t, runEncoded e s = .next t := by
  rcases runEncoded_cases e s with ⟨reg, -, h⟩ | ⟨reg, w, -, -, h⟩ | ⟨w, -, h⟩ | ⟨write, -, h⟩ <;>
    exact ⟨_, h⟩

/-- Who can stop a step: while the host or the port acts only a held reset does, another agent and the reset pin
never stop, and every other step is the engine's turn. -/
theorem step_outcome (s : State) :
    (∃ t, step s = .next t) ∨
    (s.inReset = true ∧ (∃ e rest, s.inputs = .port e :: rest) ∧ step s = .fault .transactionDuringReset) ∨
    (s.inReset = true ∧ s.hostActsOffPort ∧ step s = .fault .hostStepDuringReset) ∨
    (s.engineActs ∧ ∃ rest, step s = engineTurn { s with inputs := rest }) := by
  have offPort (acts : s.hostActsOffPort) (running : s.inReset = false → ∃ t, step s = .next t) :
      (∃ t, step s = .next t) ∨
      (s.inReset = true ∧ s.hostActsOffPort ∧ step s = .fault .hostStepDuringReset) := by
    cases held : s.inReset with
    | false => exact .inl (running held)
    | true => exact .inr ⟨rfl, acts, (transactionDuringResetStops s held).2 acts⟩
  cases inputs : s.inputs with
  | nil => exact .inr (.inr (.inr ⟨.inl inputs, [], by rw [step_nil inputs, ← inputs]⟩))
  | cons i rest =>
    have taken := step_cons inputs
    cases i with
    | port e =>
      cases held : s.inReset with
      | false =>
        obtain ⟨t, answered⟩ := runEncoded_completes e { s with inputs := rest }
        have runs := takePort_running (s := { s with inputs := rest }) e held
        exact .inl ⟨t, taken.trans (runs.trans answered)⟩
      | true =>
        exact .inr (.inl ⟨rfl, ⟨e, rest, rfl⟩, (transactionDuringResetStops s held).1 e rest inputs⟩)
    | engineTurn => exact .inr (.inr (.inr ⟨.inr ⟨rest, inputs⟩, rest, taken⟩))
    | memWrite agent index lanes q =>
      cases agent with
      | host =>
        exact (offPort ⟨rest, .inl ⟨index, lanes, q, inputs⟩⟩ fun running =>
          ⟨_, taken.trans (takeHostStep_eq_next.2 ⟨running, rfl⟩)⟩).imp_right (.inr ∘ .inl)
      | other => exact .inl ⟨_, taken⟩
    | memRead index =>
      exact (offPort ⟨rest, .inr (.inl ⟨index, inputs⟩)⟩ fun running =>
        ⟨_, taken.trans (takeHostStep_eq_next.2 ⟨running, rfl⟩)⟩).imp_right (.inr ∘ .inl)
    | irqTaken =>
      exact (offPort ⟨rest, .inr (.inr inputs)⟩ fun running =>
        ⟨_, taken.trans (takeHostStep_eq_next.2 ⟨running, rfl⟩)⟩).imp_right (.inr ∘ .inl)
    | resetAssert => exact .inl ⟨_, taken⟩
    | resetRelease => exact .inl ⟨_, taken⟩

/-- Settles O30, by who can stop a step: the invariant leaves the engine's turn no stop but the refusal. -/
theorem stopsOnlyWhereSpecStops : Obligations.StopsOnlyWhereSpecStops := by
  intro s inv
  rcases step_outcome s with ⟨t, next⟩ | ⟨held, port, stop⟩ | ⟨held, host, stop⟩ | ⟨acts, rest, turn⟩
  · rw [next]
    exact ⟨nofun, nofun⟩
  · rw [stop]
    exact ⟨by rintro _ ⟨⟩; exact ⟨held, .inl ⟨rfl, port⟩⟩, nofun⟩
  · rw [stop]
    exact ⟨by rintro _ ⟨⟩; exact ⟨held, .inr ⟨rfl, host⟩⟩, nofun⟩
  · rw [turn]
    rcases engineTurn_outcome (s := { s with inputs := rest }) inv.busyValid with
      ⟨t, next⟩ | ⟨refused, busy, nonOrdinary⟩
    · rw [next]
      exact ⟨nofun, nofun⟩
    · rw [refused]
      exact ⟨nofun, by rintro _ ⟨⟩; exact ⟨rfl, acts, busy, nonOrdinary⟩⟩

/-! ## An operation left alone ends (70_reset_and_hazards.md R250) -/

/-- Settles O52, by induction on the pixels left: a step counts one of them and leaves the invariant to go on
with, or it ends the operation. -/
theorem operationEnds : Obligations.OperationEnds := by
  intro s inv busy noInput ordinary
  induction left : pixelCount s.snap - s.regs.progress.toNat generalizing s with
  | zero =>
    have := (inv.regsInv.busyValid busy).2
    omega
  | succ k ih =>
    have counted := toNat_progress_succ (inv.regsInv.busyValid busy).2
    obtain ⟨t, stepped, platform, snap, inputs, engine⟩ := pixelStep_of_ordinary (inv.busyValid busy) ordinary
    have next : step s = .next t := ((step_nil noInput).trans (engineTurn_busy busy)).trans stepped
    rcases engine with ⟨more, regs⟩ | ⟨last, regs⟩ | regs
    · have progress : t.regs.progress.toNat = s.regs.progress.toNat + 1 := by rw [regs]; exact counted
      obtain ⟨n, u, run, bound, idle, done, outcome⟩ := ih t (stepKeepsInvariant s t inv next)
        (by rw [regs]; exact busy) (inputs.trans noInput) (by rw [platform, snap]; exact ordinary)
        (by rw [snap]; omega)
      refine ⟨n + 1, u, ⟨t, next, run⟩, by omega, idle, done, ?_⟩
      rcases outcome with ⟨noError, steps, all⟩ | ⟨bus, steps⟩
      · exact .inl ⟨noError, by omega, all.trans (by rw [snap])⟩
      · exact .inr ⟨bus, by omega⟩
    · refine ⟨1, t, ⟨t, next, rfl⟩, by omega, by rw [regs], by rw [regs], .inl ⟨by rw [regs], by omega, ?_⟩⟩
      rw [regs, ← last]
      exact counted
    · exact ⟨1, t, ⟨t, next, rfl⟩, by omega, by rw [regs], by rw [regs], .inr ⟨by rw [regs], by rw [regs]⟩⟩

end Sys2Proof.Machine
end

section
/-! Proofs of the statements about memory writes of the host and other agents: one that meets an extent of the
running operation, and one that does not (70_reset_and_hazards.md R246; 20_memory.md R71). -/

namespace Sys2Proof.Machine

/-- An aligned access of four bytes lies inside the memory space (20_memory.md R61). -/
theorem aligned_access_inside (index : BitVec 30) : 4 * index.toNat + 4 ≤ memBytes := by
  have bound := index.isLt
  unfold memBytes
  omega

/-! ## A write outside the extents (70_reset_and_hazards.md R246) -/

/-- A write to backed bytes draws no free value. -/
theorem landLane_freeCount {s : State} {a k : Nat} {lanes : BitVec 4} (q : Quad)
    (hb : lanes.getLsbD k = true → backed s.platform (a + k) = true) :
    (landLane a k lanes q s).freeCount = s.freeCount := by
  unfold landLane landWrite
  split_ifs with written isBacked
  · rfl
  · exact absurd (hb written) isBacked
  · rfl

theorem landLanes_freeCount {s : State} {a : Nat} {lanes : BitVec 4} (q : Quad)
    (hb : ∀ k < 4, lanes.getLsbD k = true → backed s.platform (a + k) = true) :
    (landLanes a lanes q s).freeCount = s.freeCount := by
  have lane3 := hb 3 (by omega)
  have lane2 := hb 2 (by omega)
  have lane1 := hb 1 (by omega)
  unfold landLanes
  rw [landLane_freeCount q (by simpa using lane3), landLane_freeCount q (by simpa using lane2),
    landLane_freeCount q (by simpa using lane1), landLane_freeCount q (hb 0 (by omega))]

/-- Settles O54: the write conflicts with nothing, so it is its lanes alone, each of which lands. -/
theorem harmlessWrite : Obligations.HarmlessWrite := by
  intro s agent index lanes q running isBacked apart
  have noConflict : ¬lanesConflict (4 * index.toNat) lanes s = true := by
    rw [lanesConflict_iff]
    rintro ⟨busy, k, hk, written, extent⟩
    obtain ⟨source, destination⟩ := apart.resolve_left (by simp [busy]) k hk written
    simp [source, destination] at extent
  have lands : agentWrite index lanes q s = landLanes (4 * index.toNat) lanes q s := if_neg noConflict
  refine ⟨next_memWrite.2 ⟨running, rfl⟩, fun k hk written => ?_, fun a other => ?_, agentWrite_regs s _ _ _,
    agentWrite_snap s _ _ _, ?_, ?_⟩ <;> rw [lands]
  · exact read_landLanes_same s _ lanes q hk written (aligned_access_inside index) (isBacked k hk written)
  · exact read_landLanes_other s _ lanes q other
  · exact landLanes_conflict s _ _ _
  · exact landLanes_freeCount q isBacked

/-! ## What a conflicting write leaves of the bytes (70_reset_and_hazards.md R246) -/

/-- A byte that is no destination byte still to be written is kept. -/
theorem read_spoilUnwritten_other {s : State} {a : Nat}
    (ha : ¬(dstStart s.snap + 4 * s.regs.progress.toNat ≤ a ∧ a < dstEnd s.snap)) :
    (spoilUnwritten s).mem.read a = s.mem.read a := by
  rw [dstEnd_eq] at ha
  exact read_fillFree_other _ _ (by omega)

/-- Each destination byte still to be written becomes a free value of its own. -/
theorem read_spoilUnwritten_inside {s : State} {a : Nat}
    (ha : dstStart s.snap + 4 * s.regs.progress.toNat ≤ a ∧ a < dstEnd s.snap) (space : a < memBytes) :
    (spoilUnwritten s).mem.read a =
      Config.freeByte (s.freeCount + (a - (dstStart s.snap + 4 * s.regs.progress.toNat))) := by
  rw [dstEnd_eq] at ha
  obtain ⟨k, rfl⟩ := Nat.exists_eq_add_of_le ha.1
  rw [Nat.add_sub_cancel_left]
  exact read_fillFree_inside _ _ (by omega) space

/-- An agent's write draws free values or none. -/
theorem le_landLanes_freeCount (s : State) (a : Nat) (lanes : BitVec 4) (q : Quad) :
    s.freeCount ≤ (landLanes a lanes q s).freeCount := by
  have grow := fun t k => le_landLane_freeCount t a k lanes q
  exact (grow s 0).trans ((grow _ 1).trans ((grow _ 2).trans (grow _ 3)))

/-! ## The engine's step after a conflicting write (70_reset_and_hazards.md R246) -/

/-- Whether the reads of a pixel fail does not hang on what memory holds (42_resize_datapath.md R165). -/
theorem pixelBytes_eq_none_congr {p : Platform} {m : Memory} (m' : Memory) {sn : Snapshot} {i : Nat}
    (h : pixelBytes p m sn i = none) : pixelBytes p m' sn i = none := by
  by_cases read : neighboursBacked p sn (axisX sn i) (axisY sn i)
  · cases hf : Format.ofCode sn.fmt with
    | none => rw [pixelBytes, hf, Option.bind_none]
    | some f => rw [pixelBytes_backed hf read] at h; cases h
  · exact pixelBytes_unbacked read m'

/-- The registers after a pixel's write: they hang on the registers, the snapshot and the platform before it,
and not on what memory holds or on the bytes written (42_resize_datapath.md R170). -/
theorem writePixel_regs (q : Quad) (s : State) : (writePixel q s).regs =
    if backedQuad s.platform (pixelAddr s.snap s.regs.progress.toNat) = true then
      if s.regs.progress.toNat + 1 = pixelCount s.snap
        then { s.regs with progress := s.regs.progress + 1, busy := false, done := true, err := .none }
        else { s.regs with progress := s.regs.progress + 1 }
    else { s.regs with busy := false, done := true, err := .bus } := by
  rcases writePixel_cases q s with ⟨backed, more, written⟩ | ⟨backed, last, written⟩ | ⟨unbacked, failed⟩
  · rw [if_pos backed, if_neg more, written]
  · rw [if_pos backed, if_pos last, written]
  · rw [if_neg (by simp [unbacked]), failed]
    rfl

/-- `STATUS` and `PROGRESS` go on whatever memory holds and whether or not an extent has been written
(70_reset_and_hazards.md R246). -/
theorem pixelStep_regs_congr {s t u : State} (regs : t.regs = s.regs) (snap : t.snap = s.snap)
    (platform : t.platform = s.platform) (h : pixelStep s = .next u) :
    ∃ v, pixelStep t = .next v ∧ v.regs = u.regs ∧ v.conflict = t.conflict := by
  obtain ⟨valid, ordinary, bytes⟩ := pixelStep_cases h
  have valid' : validOperation t = true := by rw [validOperation, regs, snap]; exact valid
  have ordinary' : ordinaryExtents t.platform t.snap = true := by rw [platform, snap]; exact ordinary
  rcases bytes with ⟨q, bytes, rfl⟩ | ⟨noBytes, rfl⟩
  · cases bytes' : pixelBytes t.platform t.mem t.snap t.regs.progress.toNat with
    | none =>
      rw [platform, snap, regs] at bytes'
      rw [pixelBytes_eq_none_congr s.mem bytes'] at bytes
      cases bytes
    | some q' =>
      refine ⟨_, pixelStep_of_bytes valid' ordinary' bytes', ?_, writePixel_conflict t q'⟩
      rw [writePixel_regs, writePixel_regs, regs, snap, platform]
  · have noBytes' : pixelBytes t.platform t.mem t.snap t.regs.progress.toNat = none := by
      rw [platform, snap, regs]
      exact pixelBytes_eq_none_congr t.mem noBytes
    exact ⟨_, pixelStep_of_readError valid' ordinary' noBytes', by simp only [stopBus_regs, regs],
      stopBus_conflict t⟩

/-- A pixel that the engine counts while a conflict is on record holds free values. -/
theorem loadQuad_counted_of_conflict {s t : State} (conflict : s.conflict = true) (h : pixelStep s = .next t)
    (counted : t.regs.progress ≠ s.regs.progress) :
    loadQuad t.mem (pixelAddr s.snap s.regs.progress.toNat) = freeQuad s.freeCount := by
  obtain ⟨valid, -, ⟨q, -, rfl⟩ | ⟨-, rfl⟩⟩ := pixelStep_cases h
  · have free : bytesToWrite q s = freeQuad s.freeCount := if_pos conflict
    rcases writePixel_cases q s with ⟨-, -, written⟩ | ⟨-, -, written⟩ | ⟨-, failed⟩
    · exact (loadQuad_of_stored valid (by rw [written]; rfl)).trans free
    · exact (loadQuad_of_stored valid (by rw [written]; rfl)).trans free
    · exact absurd (by rw [failed]; rfl) counted
  · exact absurd rfl counted

/-- Settles O53: the lanes land first, and then the destination bytes still to be written are drawn free, with
the conflict on record for the engine's next step. -/
theorem conflictingWrite : Obligations.ConflictingWrite := by
  intro s agent index lanes q running busy meets unwritten t
  have spoiled : t = spoilUnwritten (landLanes (4 * index.toNat) lanes q s) :=
    if_pos (lanesConflict_iff.2 ⟨busy, meets⟩)
  have inside := aligned_access_inside index
  have kept : ∀ a, ¬unwritten a → t.mem.read a = (landLanes (4 * index.toNat) lanes q s).mem.read a := by
    intro a ha
    rw [spoiled]
    exact read_spoilUnwritten_other (by rw [landLanes_snap, landLanes_regs]; exact ha)
  have conflict : t.conflict = true := by rw [spoiled]; rfl
  have regs : t.regs = s.regs := agentWrite_regs s _ _ _
  have snap : t.snap = s.snap := agentWrite_snap s _ _ _
  refine ⟨next_memWrite.2 ⟨running, rfl⟩, regs, snap, conflict, ?landed, ?unbacked, ?others, ?spoiled, ?engine⟩
  case landed =>
    intro k hk written isBacked ha
    rw [kept _ ha, read_landLanes_same s _ lanes q hk written inside isBacked]
  case unbacked =>
    intro k hk written unbacked ha
    rw [kept _ ha]
    exact read_landLanes_unbacked s _ lanes q hk written inside unbacked
  case others =>
    intro a other ha
    rw [kept a ha, read_landLanes_other s _ lanes q other]
  case spoiled =>
    refine ⟨_, le_landLanes_freeCount s (4 * index.toNat) lanes q, fun a ha space => ?_⟩
    rw [spoiled, read_spoilUnwritten_inside (by simpa using ha) space, landLanes_snap, landLanes_regs]
  case engine =>
    intro u' h
    obtain ⟨u, stepped, same, still⟩ := pixelStep_regs_congr regs snap (agentWrite_platform s _ _ _) h
    refine ⟨u, stepped, same, still.trans conflict, fun counted => ?_⟩
    rw [← snap, ← regs]
    exact loadQuad_counted_of_conflict conflict stepped (by rwa [regs])

end Sys2Proof.Machine
end
